-- ==== Sys2Proof/Word.lean ====
section
/-! DEFINITION. The machine's words and the records of words that travel on its ports (spec 10_state.md R30, R33, R37, R38;
20_memory.md R62: bit i of a value has weight 2^i, which is `BitVec`'s own reading). -/

namespace Sys2Proof

/-- A 256-bit value: an operand, a register, `cmd_data` or `rsp_data` (00_scope.md R11, W = 256). -/
abbrev Word := BitVec 256

/-- A command word, `cmd_word[15:0]` (30_encoding.md R80). -/
abbrev CmdWord := BitVec 16

/-- `rsp_status[1:0]` (60_exceptions.md R203). -/
abbrev Status := BitVec 2

/-- `rsp_flags[3:0]`: bit 3 GEP, bit 2 QR, bit 1 ODD, bit 0 Z (10_state.md R34). -/
abbrev FlagBits := BitVec 4

/-- A register index: every value of a 3-bit register field names a register F0..F7 (30_encoding.md R85). -/
abbrev Reg := Fin 8

/-- The field registers F0..F7 (10_state.md R30). -/
abbrev RegFile := Vector Word 8

/-- The values of the engine's input ports at one rising edge of `clk`, every input a defined 0 or 1
(10_state.md R38; 92_eei_decisions.md D28). -/
structure Pins where
  rst      : Bool
  cmdValid : Bool
  cmdWord  : CmdWord
  cmdData  : Word
  rspReady : Bool
  deriving DecidableEq, Repr, Inhabited

/-- The pins of a client that asks for nothing: no reset, no command offered, no response taken. -/
def Pins.quiet : Pins :=
  { rst := false, cmdValid := false, cmdWord := 0, cmdData := 0, rspReady := false }

/-- A response: the three fields of `RSP` (10_state.md R33). -/
structure Response where
  status : Status
  flags  : FlagBits
  data   : Word
  deriving DecidableEq, Repr, Inhabited

/-- The command latch `CMDL`: the word and data sampled at acceptance (10_state.md R37). -/
structure Command where
  word : CmdWord
  data : Word
  deriving DecidableEq, Repr, Inhabited

end Sys2Proof
end

