-- ==== Sys2Proof/Syntax.lean ====
section
/-! DEFINITION. The command set FEMX-1 as syntax: twelve commands, one constructor per row of the opcode table
(30_encoding.md R83), with the operands that the row's format carries (R82). -/

namespace Sys2Proof

/-- The twelve assigned opcodes (30_encoding.md R83). -/
inductive Opcode where
  | nop | ld | st | ldi | add | sub | neg | mul | mont | exp | inv | sqrt
  deriving DecidableEq, Repr

/-- The six formats of a command word (30_encoding.md R82). -/
inductive Format where
  | n | d | s | i | r2 | r3
  deriving DecidableEq, Repr

/-- A command. LD's 256-bit value is no operand here: it comes with the command on `cmd_data` (30_encoding.md R80). -/
inductive Instr where
  /-- no operation (R100) -/
  | nop
  /-- `Frd <- cmd_data` reduced (R101) -/
  | ld (rd : Reg)
  /-- the response carries `Frs1` (R102) -/
  | st (rs1 : Reg)
  /-- `Frd <- imm`, zero-extended (R103) -/
  | ldi (rd : Reg) (imm : BitVec 3)
  /-- field addition (R121) -/
  | add (rd rs1 rs2 : Reg)
  /-- field subtraction (R122) -/
  | sub (rd rs1 rs2 : Reg)
  /-- field negation (R123) -/
  | neg (rd rs1 : Reg)
  /-- field multiplication (R142) -/
  | mul (rd rs1 rs2 : Reg)
  /-- Montgomery product (R141) -/
  | mont (rd rs1 rs2 : Reg)
  /-- `Frd <- Frs1 ^ Frs2` (R161) -/
  | exp (rd rs1 rs2 : Reg)
  /-- field inverse (R162) -/
  | inv (rd rs1 : Reg)
  /-- field square root with its check (R163) -/
  | sqrt (rd rs1 : Reg)
  deriving DecidableEq, Repr

/-- The opcode a command is written with. -/
def Instr.opcode : Instr → Opcode
  | .nop => .nop
  | .ld _ => .ld
  | .st _ => .st
  | .ldi _ _ => .ldi
  | .add _ _ _ => .add
  | .sub _ _ _ => .sub
  | .neg _ _ => .neg
  | .mul _ _ _ => .mul
  | .mont _ _ _ => .mont
  | .exp _ _ _ => .exp
  | .inv _ _ => .inv
  | .sqrt _ _ => .sqrt

/-- The register a command writes, if it writes one: every value-producing command except ST (10_state.md R30). -/
def Instr.dest : Instr → Option Reg
  | .nop => none
  | .ld rd => some rd
  | .st _ => none
  | .ldi rd _ => some rd
  | .add rd _ _ => some rd
  | .sub rd _ _ => some rd
  | .neg rd _ => some rd
  | .mul rd _ _ => some rd
  | .mont rd _ _ => some rd
  | .exp rd _ _ => some rd
  | .inv rd _ => some rd
  | .sqrt rd _ => some rd

end Sys2Proof
end

