-- ==== Sys2Proof/WellFormed.lean ====
section
/-! DEFINITION. The fields of a command word as numbers (30_encoding.md R81) and when they are well formed: an assigned opcode,
each field within its width, and every field that the opcode's format marks 0 equal to zero (R82, R83). An `Instr` is well
formed when its fields are; its operand types make that true of every `Instr` (Laws/PerInstr.lean proves it). -/

namespace Sys2Proof

/-- The five fields of a command word as plain numbers, `word = op·4096 + rd·512 + rs1·64 + rs2·8 + imm` (R81). -/
structure Fields where
  op  : Nat
  rd  : Nat
  rs1 : Nat
  rs2 : Nat
  imm : Nat
  deriving DecidableEq, Repr

/-- The number of an opcode (R83). -/
def Opcode.number : Opcode → Nat
  | .nop => 0 | .ld => 1 | .st => 2 | .ldi => 3 | .add => 4 | .sub => 5
  | .neg => 6 | .mul => 7 | .mont => 8 | .exp => 9 | .inv => 10 | .sqrt => 11

/-- The opcode with a number; the numbers 0xC to 0xF are reserved (R83, R88). -/
def Opcode.ofNumber : Nat → Option Opcode
  | 0 => some .nop | 1 => some .ld | 2 => some .st | 3 => some .ldi | 4 => some .add | 5 => some .sub
  | 6 => some .neg | 7 => some .mul | 8 => some .mont | 9 => some .exp | 10 => some .inv | 11 => some .sqrt
  | _ => none

/-- The format of an opcode (R83). -/
def Opcode.format : Opcode → Format
  | .nop => .n
  | .ld => .d
  | .st => .s
  | .ldi => .i
  | .neg | .inv | .sqrt => .r2
  | .add | .sub | .mul | .mont | .exp => .r3

/-- The formats that carry each field; in every other format the field must be zero (R82). -/
def Format.hasRd : Format → Bool
  | .d | .i | .r2 | .r3 => true
  | .n | .s => false

@[inherit_doc Format.hasRd] def Format.hasRs1 : Format → Bool
  | .s | .r2 | .r3 => true
  | .n | .d | .i => false

@[inherit_doc Format.hasRd] def Format.hasRs2 : Format → Bool
  | .r3 => true
  | .n | .d | .s | .i | .r2 => false

@[inherit_doc Format.hasRd] def Format.hasImm : Format → Bool
  | .i => true
  | .n | .d | .s | .r2 | .r3 => false

/-- One field: within its three bits, and zero where its format does not carry it. -/
def fieldOk (carried : Bool) (v : Nat) : Bool := v < 8 && (carried || v == 0)

/-- The fields of a legal command word (R82, R83). -/
def Fields.wf (x : Fields) : Bool :=
  match Opcode.ofNumber x.op with
  | none => false
  | some o =>
    fieldOk o.format.hasRd x.rd && fieldOk o.format.hasRs1 x.rs1 &&
      fieldOk o.format.hasRs2 x.rs2 && fieldOk o.format.hasImm x.imm

/-- The fields a command is written with (R82: a field its format does not carry is 0). -/
def Instr.fields (i : Instr) : Fields :=
  let op := i.opcode.number
  match i with
  | .nop => ⟨op, 0, 0, 0, 0⟩
  | .ld rd => ⟨op, rd, 0, 0, 0⟩
  | .st rs1 => ⟨op, 0, rs1, 0, 0⟩
  | .ldi rd imm => ⟨op, rd, 0, 0, imm.toNat⟩
  | .add rd rs1 rs2 => ⟨op, rd, rs1, rs2, 0⟩
  | .sub rd rs1 rs2 => ⟨op, rd, rs1, rs2, 0⟩
  | .neg rd rs1 => ⟨op, rd, rs1, 0, 0⟩
  | .mul rd rs1 rs2 => ⟨op, rd, rs1, rs2, 0⟩
  | .mont rd rs1 rs2 => ⟨op, rd, rs1, rs2, 0⟩
  | .exp rd rs1 rs2 => ⟨op, rd, rs1, rs2, 0⟩
  | .inv rd rs1 => ⟨op, rd, rs1, 0, 0⟩
  | .sqrt rd rs1 => ⟨op, rd, rs1, 0, 0⟩

/-- A command is well formed when its fields are. -/
def Instr.wf (i : Instr) : Bool := i.fields.wf

end Sys2Proof
end

