-- ==== Sys2Proof/Decode.lean ====
section
/-! DEFINITION. Decoding a command word, total over all 65536 words and rejecting by name (30_encoding.md R83, R87), and
encoding a command (R81). -/

namespace Sys2Proof

/-- Why a word is ILLEGAL (30_encoding.md R87, R88). The engine answers both with the same response (60_exceptions.md R205). -/
inductive Illegal where
  /-- the opcode is 0xC to 0xF -/
  | reservedOpcode
  /-- a must-be-zero bit of the opcode's format is 1 -/
  | nonzeroField
  deriving DecidableEq, Repr

/-! ### The fields of a word (R81) -/

/-- `op`, bits 15:12. -/
def CmdWord.op (w : CmdWord) : BitVec 4 := w.extractLsb' 12 4

/-- `rd`, bits 11:9. -/
def CmdWord.rd (w : CmdWord) : Reg := (w.extractLsb' 9 3).toFin

/-- `rs1`, bits 8:6. -/
def CmdWord.rs1 (w : CmdWord) : Reg := (w.extractLsb' 6 3).toFin

/-- `rs2`, bits 5:3. -/
def CmdWord.rs2 (w : CmdWord) : Reg := (w.extractLsb' 3 3).toFin

/-- `imm`, bits 2:0. -/
def CmdWord.imm (w : CmdWord) : BitVec 3 := w.extractLsb' 0 3

/-! ### The opcode map (R83): a word selects a row when `word & mask = pattern` -/

/-- The row's mask: the opcode bits and the must-be-zero bits. -/
def Opcode.mask : Opcode → CmdWord
  | .nop => 0xFFFF
  | .ld => 0xF1FF
  | .st => 0xFE3F
  | .ldi => 0xF1F8
  | .add => 0xF007
  | .sub => 0xF007
  | .neg => 0xF03F
  | .mul => 0xF007
  | .mont => 0xF007
  | .exp => 0xF007
  | .inv => 0xF03F
  | .sqrt => 0xF03F

/-- The row's match value. -/
def Opcode.pattern : Opcode → CmdWord
  | .nop => 0x0000
  | .ld => 0x1000
  | .st => 0x2000
  | .ldi => 0x3000
  | .add => 0x4000
  | .sub => 0x5000
  | .neg => 0x6000
  | .mul => 0x7000
  | .mont => 0x8000
  | .exp => 0x9000
  | .inv => 0xA000
  | .sqrt => 0xB000

/-- The command of an opcode with the operands its format takes from the word. -/
def Opcode.command (o : Opcode) (w : CmdWord) : Instr :=
  match o with
  | .nop => .nop
  | .ld => .ld (CmdWord.rd w)
  | .st => .st (CmdWord.rs1 w)
  | .ldi => .ldi (CmdWord.rd w) (CmdWord.imm w)
  | .add => .add (CmdWord.rd w) (CmdWord.rs1 w) (CmdWord.rs2 w)
  | .sub => .sub (CmdWord.rd w) (CmdWord.rs1 w) (CmdWord.rs2 w)
  | .neg => .neg (CmdWord.rd w) (CmdWord.rs1 w)
  | .mul => .mul (CmdWord.rd w) (CmdWord.rs1 w) (CmdWord.rs2 w)
  | .mont => .mont (CmdWord.rd w) (CmdWord.rs1 w) (CmdWord.rs2 w)
  | .exp => .exp (CmdWord.rd w) (CmdWord.rs1 w) (CmdWord.rs2 w)
  | .inv => .inv (CmdWord.rd w) (CmdWord.rs1 w)
  | .sqrt => .sqrt (CmdWord.rd w) (CmdWord.rs1 w)

/-- Decoding (R87): a reserved opcode, then a one in a must-be-zero bit, then the row's command. -/
def decode (w : CmdWord) : Except Illegal Instr :=
  match Opcode.ofNumber (CmdWord.op w).toNat with
  | none => .error .reservedOpcode
  | some o => if w &&& o.mask = o.pattern then .ok (o.command w) else .error .nonzeroField

/-- The host's reading of a table word: the command word is its low 16 bits, those above `nbits` being 0. -/
def decodeTableWord (nbits w : Nat) : Option Instr :=
  (decode (BitVec.ofNat 16 (w % 2 ^ nbits))).toOption

/-- The word with the given fields, `op·4096 + rd·512 + rs1·64 + rs2·8 + imm` (R81). -/
def Fields.word (x : Fields) : CmdWord :=
  BitVec.ofNat 16 (x.op * 4096 + x.rd * 512 + x.rs1 * 64 + x.rs2 * 8 + x.imm)

/-- Encoding: the word of a command (R81, R82). -/
def encode (i : Instr) : CmdWord := i.fields.word

end Sys2Proof
end

