-- ==== Sys2Proof/Machine/Rom.lean ====
section
/-! DEFINITION. The constants: the field prime (00_scope.md R3) and the constant ROM (42_montgomery_mul.md R140,
43_modexp.md R160). They are not state: no command writes them and reset leaves them. -/

namespace Sys2Proof.Machine

/-- The field prime `P = 2^256 − 2^32 − 977` (R3). -/
def P : Nat := 2 ^ 256 - 2 ^ 32 - 977

/-- The Montgomery radix `R = 2^256` (R140). -/
def R : Nat := 2 ^ 256

/-- `R mod P` (R140). -/
def RMOD : Nat := 0x1000003d1

/-- `R2 = R² mod P` (R140). -/
def R2 : Nat := 0x1000007a2000e90a1

/-- `RINV = R⁻¹ mod P` (R140), which the result of MONT uses (R141). -/
def RINV : Nat := 0xc9bd1905155383999c46c2c295f2b761bcb223fedc24a059d838091d0868192a

/-- `PP = −P⁻¹ mod R` (R140). -/
def PP : Nat := 0xc9bd1905155383999c46c2c295f2b761bcb223fedc24a059d838091dd2253531

/-- `n0 = −P⁻¹ mod 2^64` (R140). -/
def N0 : Nat := 0xd838091dd2253531

/-- `n0_32 = −P⁻¹ mod 2^32` (R140). -/
def N0w32 : Nat := 0xd2253531

/-- `E_INV = P − 2` (R160). -/
def EINV : Nat := 0xfffffffffffffffffffffffffffffffffffffffffffffffffffffffefffffc2d

/-- `E_SQRT = (P + 1) / 4` (R160). -/
def ESQRT : Nat := 0x3fffffffffffffffffffffffffffffffffffffffffffffffffffffffbfffff0c

end Sys2Proof.Machine
end

