-- ==== Sys2Proof/Machine/Field.lean ====
section
/-! DEFINITION. The field operations of 00_scope.md R14. Operands become integers, the result is formed exactly and narrowed once,
by the non-negative `mod` of R12 (41_field_addsub.md R120, 42_montgomery_mul.md R144). -/

namespace Sys2Proof.Machine

/-- The word of an integer reduced into `[0, P)`, also for a negative one (R12). -/
def modP (z : Int) : Word := BitVec.ofNat 256 (z % (P : Int)).toNat

/-- `addP(a, b) = (a + b) mod P`. -/
def addP (a b : Word) : Word := modP ((a.toNat : Int) + b.toNat)

/-- `subP(a, b) = (a − b) mod P`. -/
def subP (a b : Word) : Word := modP ((a.toNat : Int) - b.toNat)

/-- `negP(a) = (P − a) mod P`. -/
def negP (a : Word) : Word := modP ((P : Int) - a.toNat)

/-- `mulP(a, b) = (a · b) mod P`, of the exact product. -/
def mulP (a b : Word) : Word := modP ((a.toNat : Int) * b.toNat)

/-- The Montgomery product `a · b · R⁻¹ mod P` (42_montgomery_mul.md R141). -/
def montP (a b : Word) : Word := modP ((a.toNat : Int) * b.toNat * RINV)

/-- `a^e mod P` by squaring, over the low `n` bits of `e`. -/
def powMod (a e : Nat) : Nat → Nat
  | 0 => 1
  | n + 1 =>
    let r := powMod a (e / 2) n
    if e % 2 = 1 then r * r % P * a % P else r * r % P

/-- `powP(a, e) = a^e mod P` with `powP(a, 0) = 1` for every `a`, for an exponent of at most 256 bits. It is computed by squaring so
that it can be evaluated; `powP_toNat` (Laws/Field.lean) proves it equal to `a^e mod P`. Log entry 8. -/
def powP (a : Word) (e : Nat) : Word := BitVec.ofNat 256 (powMod a.toNat e 256)

end Sys2Proof.Machine
end

