-- ==== Sys2Proof/Machine/Flags.lean ====
section
/-! DEFINITION. The response flags (10_state.md R34, R35). They exist only in a response: there is no flag register and no command
reads a flag. -/

namespace Sys2Proof.Machine

/-- `Z`: the response value is 0. -/
def zeroFlag (v : Word) : Bool := v == 0

/-- `ODD`: the response value is odd, `v[0]`. -/
def oddFlag (v : Word) : Bool := v.getLsbD 0

/-- The flags of an OK command other than NOP, `{GEP, QR, ODD, Z}` with GEP in bit 3; `gep` is 0 but for LD and `qr` is 0 but for
SQRT (R35). -/
def flagsOf (gep qr : Bool) (v : Word) : FlagBits :=
  BitVec.ofBool gep ++ BitVec.ofBool qr ++ BitVec.ofBool (oddFlag v) ++ BitVec.ofBool (zeroFlag v)

end Sys2Proof.Machine

namespace Sys2Proof

/-- Bit 0 of the response's flags, `Z` (R34). -/
def Response.z (r : Response) : Bool := r.flags.getLsbD 0

/-- Bit 1 of the response's flags, `ODD` (R34). -/
def Response.odd (r : Response) : Bool := r.flags.getLsbD 1

/-- Bit 2 of the response's flags, `QR` (R34). -/
def Response.qr (r : Response) : Bool := r.flags.getLsbD 2

/-- Bit 3 of the response's flags, `GEP` (R34). -/
def Response.gep (r : Response) : Bool := r.flags.getLsbD 3

end Sys2Proof
end

