-- ==== Sys2Proof/Config.lean ====
section
/-! DEFINITION. What one build of the hardware fixes and the spec leaves open, and the free values. None of them has a body,
so no proof can learn a value of one: what is proved holds whatever they are. -/

namespace Sys2Proof

/-- `MAXLAT` less one (00_scope.md R11: `MAXLAT` is OPEN, a finite bound on every `LAT`). Log entry 3. -/
opaque Config.maxLatLessOne : Nat

/-- `MAXLAT`, the bound on every latency; at least 1 because `1 <= LAT <= MAXLAT` (10_state.md R41). -/
def Config.maxLat : Nat := Config.maxLatLessOne + 1

/-- `LAT` less one of the command accepted at a given edge. It may depend on the opcode, on the operands and on the build
(70_reset_and_hazards.md R239), so it is applied to the edge's number, the command and the registers. Log entry 3. -/
opaque Config.latLessOne (edge : Nat) (c : Command) (f : RegFile) : Fin (Config.maxLatLessOne + 1)

/-- `LAT`, the cycles from acceptance to completion of the command accepted at the given edge. -/
def Config.latency (edge : Nat) (c : Command) (f : RegFile) : Nat := (Config.latLessOne edge c f).val + 1

/-- The input pins at an edge for which the state lists none: any values at all. Log entry 2. -/
opaque Config.freePins (edge : Nat) : Pins

/-- What `rsp_status`, `rsp_flags` and `rsp_data` show while `rsp_valid = 0`: any values (10_state.md R39;
93_implementation_defined.md U3). Log entry 6. -/
opaque Config.undrivenResponse (edge : Nat) : Response

end Sys2Proof
end

