-- ==== Sys2Proof/Machine/State.lean ====
section
/-! DEFINITION. The machine's state, plain data: what the spec gives the engine (10_state.md R30, R33, R36, R37, R45, R46) and,
apart from it, the model's own record of the world outside the engine (log entries 1, 2, 3). -/

namespace Sys2Proof.Machine

/-- The phase register `PHASE[1:0]` (10_state.md R36). It is not software-addressable. -/
inductive Phase where
  /-- `0b00`: no command in the engine -/
  | idle
  /-- `0b01`: a command was accepted and has not completed -/
  | busy
  /-- `0b10`: a response is offered -/
  | resp
  /-- `0b11`: the unreachable code; without a reset it has no step (93_implementation_defined.md U5) -/
  | unused
  deriving DecidableEq, Repr

/-- The code of a phase (10_state.md R36). -/
def Phase.code : Phase → BitVec 2
  | .idle => 0b00
  | .busy => 0b01
  | .resp => 0b10
  | .unused => 0b11

/-- The state. The first four fields are the spec's, the last four the model's own. -/
structure State where
  /-- F0..F7 (R30) -/
  regs : RegFile
  /-- PHASE (R36) -/
  phase : Phase
  /-- RSP (R33) -/
  rsp : Response
  /-- CMDL (R37) -/
  cmdl : Command
  /-- model's own: the edges left until the command in BUSY completes (R41, log entry 3) -/
  busyLeft : Nat
  /-- model's own: the input pins at the coming edges, the next one first (log entry 2) -/
  pins : List Pins
  /-- model's own: `LAT` of the commands accepted next, in order (log entry 3) -/
  latencies : List Nat
  /-- model's own: how many edges have passed; the free values are drawn by it (log entry 2) -/
  edges : Nat
  deriving DecidableEq, Repr

/-- Why the machine stops. The engine itself "never traps and never hangs" (60_exceptions.md, opening). -/
inductive Fault where
  /-- raised by an edge without reset from the PHASE code `0b11`, which no transition produces (10_state.md R36) and from which
  there is no step (93_implementation_defined.md U5). Safe: nothing can be proved of a run through it. -/
  | phaseUnused
  deriving DecidableEq, Repr

/-- Why the model gives a command no meaning. -/
inductive Refusal where
  /-- raised by an arm of `exec` for a command that has no meaning yet; no arm raises it now. Safe. -/
  | notModelled (mnemonic : String)
  deriving DecidableEq, Repr

/-- The state right after reset (10_state.md R44): every register, RSP and CMDL 0, PHASE IDLE. The model's own fields list nothing
(log entry 9). -/
def State.reset : State :=
  { regs := Vector.replicate 8 0
    phase := .idle
    rsp := { status := 0, flags := 0, data := 0 }
    cmdl := { word := 0, data := 0 }
    busyLeft := 0
    pins := []
    latencies := []
    edges := 0 }

end Sys2Proof.Machine
end

