-- ==== Sys2Proof/Machine/Operands.lean ====
section
/-! DEFINITION. The operand forms of a command (30_encoding.md R84, R85, R86): a register, LDI's immediate, LD's data. Every command's
register accesses go through `State.reg` and `State.writeReg`. -/

namespace Sys2Proof.Machine

/-- `F[i]`: the whole register `Fi`. A read changes nothing (20_memory.md R66, R67). -/
def State.reg (s : State) (i : Reg) : Word := s.regs[i]

/-- `F[i] <- v`: the whole register `Fi` is written. None of the eight is hardwired (10_state.md R30). -/
def State.writeReg (s : State) (i : Reg) (v : Word) : State := { s with regs := s.regs.set i v }

/-- LDI's immediate: `zext_256(imm)`, never sign-extended, scaled or shifted (R84). -/
def immediate (imm : BitVec 3) : Word := imm.zeroExtend 256

/-- LD's data operand: the `cmd_data` value sampled with the command (R86). -/
def State.data (s : State) : Word := s.cmdl.data

end Sys2Proof.Machine
end

