-- ==== Sys2Proof/Machine/Ops.lean ====
section
/-! DEFINITION. The shared operations of the commands: the two ways a completion edge ends (10_state.md R41), and the one exception,
ILLEGAL (60_exceptions.md R200, R201). There is no return from it, because there is no trap (R206, R207). -/

namespace Sys2Proof.Machine

/-- Status OK (60_exceptions.md R203). -/
def statusOk : Status := 0b00

/-- Status ILLEGAL (60_exceptions.md R203). -/
def statusIllegal : Status := 0b01

/-- `respond(st, fl, d)` of 00_scope.md R13 with the rest of the completion edge: `RSP <- resp; PHASE <- RESP` (10_state.md R41). -/
def State.respond (s : State) (st : Status) (fl : FlagBits) (d : Word) : State :=
  { s with rsp := { status := st, flags := fl, data := d }, phase := .resp }

/-- The completion of a value-producing command that writes a register: `F[rd] <- v`, status OK, the flags of `v`, and `v` as the
response data. -/
def State.retire (s : State) (rd : Reg) (gep qr : Bool) (v : Word) : State :=
  (s.writeReg rd v).respond statusOk (flagsOf gep qr v) v

/-- `raise Illegal()`: status ILLEGAL, flags 0000, data 0, no register write (00_scope.md R13; 60_exceptions.md R201). -/
def State.raiseIllegal (s : State) : State := s.respond statusIllegal 0b0000 0

end Sys2Proof.Machine
end

