-- ==== Sys2Proof/Machine/AddSub.lean ====
section
/-! DEFINITION. Field addition, subtraction and negation: ADD, SUB, NEG (41_field_addsub.md). Operands are read before the write, so
the destination may be a source (30_encoding.md R85). -/

namespace Sys2Proof.Machine

/-- ADD (R121). -/
def execAdd (rd rs1 rs2 : Reg) (s : State) : Host.Outcome State Fault Refusal :=
  .next (s.retire rd false false (addP (s.reg rs1) (s.reg rs2)))

/-- SUB (R122). -/
def execSub (rd rs1 rs2 : Reg) (s : State) : Host.Outcome State Fault Refusal :=
  .next (s.retire rd false false (subP (s.reg rs1) (s.reg rs2)))

/-- NEG (R123): 0 maps to 0, not to P. -/
def execNeg (rd rs1 : Reg) (s : State) : Host.Outcome State Fault Refusal :=
  .next (s.retire rd false false (negP (s.reg rs1)))

end Sys2Proof.Machine
end

