-- ==== Sys2Proof/Machine/Modexp.lean ====
section
/-! DEFINITION. Modular exponentiation, inversion and square root: EXP, INV, SQRT (43_modexp.md). -/

namespace Sys2Proof.Machine

/-- EXP (R161): the exponent is the register's value, a natural number. -/
def execExp (rd rs1 rs2 : Reg) (s : State) : Host.Outcome State Fault Refusal :=
  .next (s.retire rd false false (powP (s.reg rs1) (s.reg rs2).toNat))

/-- INV (R162): `x^(P−2) mod P`; the inverse of 0 is 0, with status OK. -/
def execInv (rd rs1 : Reg) (s : State) : Host.Outcome State Fault Refusal :=
  .next (s.retire rd false false (powP (s.reg rs1) EINV))

/-- SQRT (R163): `r = x^((P+1)/4) mod P`, written even when `x` has no root; QR says whether `r` squares back to the operand that
was read before the write. -/
def execSqrt (rd rs1 : Reg) (s : State) : Host.Outcome State Fault Refusal :=
  let a := s.reg rs1
  let r := powP a ESQRT
  .next (s.retire rd false (mulP r r == a) r)

end Sys2Proof.Machine
end

