-- ==== Sys2Proof/Machine/Montgomery.lean ====
section
/-! DEFINITION. The Montgomery multiplier's commands MUL and MONT (42_montgomery_mul.md). -/

namespace Sys2Proof.Machine

/-- MUL (R142): the exact product, reduced. -/
def execMul (rd rs1 rs2 : Reg) (s : State) : Host.Outcome State Fault Refusal :=
  .next (s.retire rd false false (mulP (s.reg rs1) (s.reg rs2)))

/-- MONT (R141): the exact product times `R⁻¹`, fully reduced. -/
def execMont (rd rs1 rs2 : Reg) (s : State) : Host.Outcome State Fault Refusal :=
  .next (s.retire rd false false (montP (s.reg rs1) (s.reg rs2)))

end Sys2Proof.Machine
end

