-- ==== Sys2Proof/Machine/Transfer.lean ====
section
/-! DEFINITION. The transfer commands NOP, LD, ST, LDI (40_transfer.md). -/

namespace Sys2Proof.Machine

/-- NOP (R100): no register changes; it responds like every command, with flags 0000 and data 0. -/
def execNop (s : State) : Host.Outcome State Fault Refusal :=
  .next (s.respond statusOk 0b0000 0)

/-- LD (R101): the data reduced by at most one subtraction of P; GEP says that it was at or above P. -/
def execLd (rd : Reg) (s : State) : Host.Outcome State Fault Refusal :=
  let d := s.data
  .next (s.retire rd (decide (P ≤ d.toNat)) false (if P ≤ d.toNat then d - BitVec.ofNat 256 P else d))

/-- ST (R102): the register's value in the response; no register changes. -/
def execSt (rs1 : Reg) (s : State) : Host.Outcome State Fault Refusal :=
  let v := s.reg rs1
  .next (s.respond statusOk (flagsOf false false v) v)

/-- LDI (R103): a small constant. -/
def execLdi (rd : Reg) (imm : BitVec 3) (s : State) : Host.Outcome State Fault Refusal :=
  .next (s.retire rd false false (immediate imm))

end Sys2Proof.Machine
end

