-- ==== Sys2Proof/Machine/Dispatch.lean ====
section
/-! DEFINITION. One arm per command, each a direct call of its meaning: the `execute` of a legal word at its completion edge
(10_state.md R41; 30_encoding.md R87). -/

namespace Sys2Proof.Machine

def exec (i : Instr) (s : State) : Host.Outcome State Fault Refusal :=
  match i with
  | .nop => Sys2Proof.Machine.execNop s
  | .ld rd => Sys2Proof.Machine.execLd rd s
  | .st rs1 => Sys2Proof.Machine.execSt rs1 s
  | .ldi rd imm => Sys2Proof.Machine.execLdi rd imm s
  | .add rd rs1 rs2 => Sys2Proof.Machine.execAdd rd rs1 rs2 s
  | .sub rd rs1 rs2 => Sys2Proof.Machine.execSub rd rs1 rs2 s
  | .neg rd rs1 => Sys2Proof.Machine.execNeg rd rs1 s
  | .mul rd rs1 rs2 => Sys2Proof.Machine.execMul rd rs1 rs2 s
  | .mont rd rs1 rs2 => Sys2Proof.Machine.execMont rd rs1 rs2 s
  | .exp rd rs1 rs2 => Sys2Proof.Machine.execExp rd rs1 rs2 s
  | .inv rd rs1 => Sys2Proof.Machine.execInv rd rs1 s
  | .sqrt rd rs1 => Sys2Proof.Machine.execSqrt rd rs1 s

end Sys2Proof.Machine
end

