-- ==== Sys2Proof/Machine/Control.lean ====
section
/-! DEFINITION. What one rising edge of `clk` does: reset, acceptance, completion, delivery, or nothing (10_state.md R40 to R42;
70_reset_and_hazards.md R230, R231). -/

namespace Sys2Proof.Machine

/-- The input pins at the coming edge: the first listed, or any values when none is listed. -/
def State.nextPins (s : State) : Pins :=
  match s.pins with
  | p :: _ => p
  | [] => Config.freePins s.edges

/-- The input pins at the `k`-th edge from now, counting the coming edge as 0. -/
def State.pinsAt (s : State) (k : Nat) : Pins := s.pins.getD k (Config.freePins (s.edges + k))

/-- The outside world after one more edge: the pins of that edge are used up. No field of the engine changes. -/
def State.advance (s : State) : State := { s with pins := s.pins.tail, edges := s.edges + 1 }

/-- Reset (R230, R231): every piece of the engine's state takes its reset value, and a command or response in the engine is gone. What
the outside world will do stays (log entry 10). -/
def State.resetEdge (s : State) : State :=
  { State.reset with pins := s.pins, latencies := s.latencies, edges := s.edges }

/-- `LAT` of the command accepted now: the first listed, or any value from 1 to `MAXLAT` when none is listed (R41). A listed 0
counts as 1, since `1 <= LAT`. -/
def State.nextLatency (s : State) (c : Command) : Nat :=
  match s.latencies with
  | n :: _ => max 1 n
  | [] => Config.latency s.edges c s.regs

/-- Acceptance (R40): `CMDL.word <- cmd_word; CMDL.data <- cmd_data; PHASE <- BUSY`. -/
def State.accept (s : State) (c : Command) : State :=
  { s with cmdl := c, phase := .busy, busyLeft := s.nextLatency c, latencies := s.latencies.tail }

/-- An edge in IDLE without reset (R40): acceptance where `cmd_valid = 1`, nothing otherwise. -/
def State.idleEdge (p : Pins) (s : State) : State :=
  if p.cmdValid then s.accept { word := p.cmdWord, data := p.cmdData } else s

/-- `execute` at the completion edge (R41): the command of a legal word, ILLEGAL of any other (30_encoding.md R87). -/
def complete (s : State) : Host.Outcome State Fault Refusal :=
  match decode s.cmdl.word with
  | .ok i => exec i s
  | .error _ => .next s.raiseIllegal

/-- An edge in BUSY without reset: the last of the command's `LAT` edges completes it (R41). The command port is ignored. -/
def busyEdge (s : State) : Host.Outcome State Fault Refusal :=
  if s.busyLeft ≤ 1 then complete { s with busyLeft := 0 } else .next { s with busyLeft := s.busyLeft - 1 }

/-- An edge in RESP without reset (R42): delivery where `rsp_ready = 1`; RSP keeps its value either way. -/
def State.respEdge (p : Pins) (s : State) : State :=
  if p.rspReady then { s with phase := .idle } else s

/-- One rising edge with the given pins. Reset outranks everything (60_exceptions.md R205). -/
def edge (p : Pins) (s : State) : Host.Outcome State Fault Refusal :=
  if p.rst then .next s.resetEdge
  else
    match s.phase with
    | .idle => .next (s.idleEdge p)
    | .busy => busyEdge s
    | .resp => .next (s.respEdge p)
    | .unused => .fault .phaseUnused

/-- The state in which the very next edge completes the command with the given word: it stands in CMDL, its last BUSY edge comes next,
and that edge has no reset (log entry 4). -/
def State.placeCommand (s : State) (w : CmdWord) : State :=
  { s with
    phase := .busy
    cmdl := { word := w, data := s.cmdl.data }
    busyLeft := 1
    pins := Pins.quiet :: s.pins }

end Sys2Proof.Machine
end

