-- ==== Sys2Proof/Machine/Step.lean ====
section
/-! DEFINITION. One step is one rising edge of `clk` (log entry 1). -/

namespace Sys2Proof.Machine

/-- One step: the edge with the next pins, which are then used up. -/
def step (s : State) : Host.Outcome State Fault Refusal := edge s.nextPins s.advance

/-- `n` edges, stopping at the first fault or refusal; it is the host's `Core.run` of this machine (Laws/Control.lean). -/
def run : Nat → State → Host.Outcome State Fault Refusal
  | 0, s => .next s
  | n + 1, s =>
    match step s with
    | .next t => run n t
    | .fault r => .fault r
    | .refused r => .refused r

/-- The state whose very next step runs the instruction with the given table word (log entry 4). -/
def State.withFetchWord (s : State) (nbits w : Nat) : State :=
  s.placeCommand (BitVec.ofNat 16 (w % 2 ^ nbits))

end Sys2Proof.Machine
end

