-- ==== Sys2Proof/Machine/Assembler.lean ====
section
/-! DEFINITION. The assembler of 30_encoding.md R90 with the pseudo-instructions of R91, on lines already cut into a mnemonic and
operands (log entry 12). A line becomes the commands to offer: a word and its `cmd_data`. -/

namespace Sys2Proof.Machine

/-- A mnemonic of R90 or R91. -/
inductive Mnemonic where
  | nop | ld | st | ldi | add | sub | neg | mul | mont | exp | inv | sqrt
  | clr | one | sqr | dbl | tst | mov | cmpeq
  | word
  deriving DecidableEq, Repr

/-- The names an LD value may use (R90). -/
inductive ConstName where
  | p | n | gx | gy | r2 | gx2 | gy2
  deriving DecidableEq, Repr

/-- The values of the names: 00_scope.md R3 and R5, 42_montgomery_mul.md R140, and 2G of 95_test_vectors.md program P2. -/
def ConstName.value : ConstName → Nat
  | .p => P
  | .n => 0xFFFFFFFFFFFFFFFFFFFFFFFFFFFFFFFEBAAEDCE6AF48A03BBFD25E8CD0364141
  | .gx => 0x79be667ef9dcbbac55a06295ce870b07029bfcdb2dce28d959f2815b16f81798
  | .gy => 0x483ada7726a3c4655da4fbfc0e1108a8fd17b448a68554199c47d08ffb10d4b8
  | .r2 => R2
  | .gx2 => 0xc6047f9441ed7d6d3045406e95c07cd85c778e4b8cef3ca7abac09b95c709ee5
  | .gy2 => 0x1ae168fea63dc339a3c58419466ceaeef7f632653266d0e1236431a950cfe52a

/-- An integer expression over the names (R90). -/
inductive Expr where
  | lit (z : Int)
  | name (c : ConstName)
  | add (a b : Expr)
  | sub (a b : Expr)
  | mul (a b : Expr)
  | pow (a : Expr) (n : Nat)
  deriving DecidableEq, Repr

/-- The exact value of an expression (R90). -/
def Expr.value : Expr → Int
  | .lit z => z
  | .name c => c.value
  | .add a b => a.value + b.value
  | .sub a b => a.value - b.value
  | .mul a b => a.value * b.value
  | .pow a n => a.value ^ n

/-- One operand as written: `F<n>`, a plain integer, or `=<expression>`. -/
inductive Operand where
  | reg (n : Nat)
  | int (z : Int)
  | value (e : Expr)
  deriving DecidableEq, Repr

/-- A register name; outside F0..F7 it is refused. -/
def Operand.asReg : Operand → Option Reg
  | .reg n => if h : n < 8 then some ⟨n, h⟩ else none
  | .int _ | .value _ => none

/-- LDI's immediate; outside 0..7 it is refused. -/
def Operand.asImm : Operand → Option (BitVec 3)
  | .int z => if 0 ≤ z ∧ z < 8 then some (BitVec.ofInt 3 z) else none
  | .reg _ | .value _ => none

/-- A raw command word, any of the 65536. -/
def Operand.asWord : Operand → Option CmdWord
  | .int z => if 0 ≤ z ∧ z < 65536 then some (BitVec.ofInt 16 z) else none
  | .reg _ | .value _ => none

/-- A value for `cmd_data`; outside `[0, 2^256)` it is refused. -/
def Operand.asValue : Operand → Option Word
  | .value e => if 0 ≤ e.value ∧ e.value < 2 ^ 256 then some (BitVec.ofInt 256 e.value) else none
  | .reg _ | .int _ => none

/-- What an operand place of a line takes (R90). -/
inductive Slot where
  | reg | imm | word | value
  deriving DecidableEq, Repr

/-- The operands a place takes: F0..F7; an immediate in 0..7; a raw word below 65536; a value in `[0, 2^256)` (R90). -/
def Slot.takes : Slot → Operand → Prop
  | .reg, .reg n => n < 8
  | .imm, .int z => 0 ≤ z ∧ z < 8
  | .word, .int z => 0 ≤ z ∧ z < 65536
  | .value, .value e => 0 ≤ e.value ∧ e.value < 2 ^ 256
  | _, _ => False

/-- The operand places of each mnemonic, in the order they are written; a raw word's value may be left out (R90, R91). -/
def Mnemonic.forms : Mnemonic → List (List Slot)
  | .nop => [[]]
  | .ld => [[.reg, .value]]
  | .st | .clr | .one | .tst => [[.reg]]
  | .ldi => [[.reg, .imm]]
  | .neg | .inv | .sqrt | .sqr | .dbl | .mov => [[.reg, .reg]]
  | .add | .sub | .mul | .mont | .exp | .cmpeq => [[.reg, .reg, .reg]]
  | .word => [[.word], [.word, .value]]

/-- A command with `cmd_data` 0. -/
def plain (i : Instr) : Command := { word := encode i, data := 0 }

/-- The commands of a line, or none where the assembler refuses it (a bad operand or a wrong operand count). -/
def assemble (m : Mnemonic) (ops : List Operand) : Option (List Command) :=
  let r3 (f : Reg → Reg → Reg → Instr) : Option (List Command) :=
    match ops with
    | [d, a, b] => do pure [plain (f (← d.asReg) (← a.asReg) (← b.asReg))]
    | _ => none
  let r2 (f : Reg → Reg → List Instr) : Option (List Command) :=
    match ops with
    | [d, a] => do pure ((f (← d.asReg) (← a.asReg)).map plain)
    | _ => none
  let r1 (f : Reg → Instr) : Option (List Command) :=
    match ops with
    | [d] => do pure [plain (f (← d.asReg))]
    | _ => none
  match m with
  | .nop => if ops.isEmpty then some [plain .nop] else none
  | .ld =>
    match ops with
    | [d, v] => do pure [{ word := encode (.ld (← d.asReg)), data := ← v.asValue }]
    | _ => none
  | .st => r1 .st
  | .ldi =>
    match ops with
    | [d, v] => do pure [plain (.ldi (← d.asReg) (← v.asImm))]
    | _ => none
  | .add => r3 .add
  | .sub => r3 .sub
  | .neg => r2 fun d a => [.neg d a]
  | .mul => r3 .mul
  | .mont => r3 .mont
  | .exp => r3 .exp
  | .inv => r2 fun d a => [.inv d a]
  | .sqrt => r2 fun d a => [.sqrt d a]
  | .clr => r1 fun d => .ldi d 0
  | .one => r1 fun d => .ldi d 1
  | .sqr => r2 fun d a => [.mul d a a]
  | .dbl => r2 fun d a => [.add d a a]
  | .tst => r1 .st
  | .mov => r2 fun d a => [.neg d a, .neg d d]
  | .cmpeq => r3 .sub
  | .word =>
    match ops with
    | [w] => do pure [{ word := ← w.asWord, data := 0 }]
    | [w, v] => do pure [{ word := ← w.asWord, data := ← v.asValue }]
    | _ => none

end Sys2Proof.Machine
end

