-- ==== Sys2Proof/Machine/AsmText.lean ====
section
/-! DEFINITION. The text of an assembly line (30_encoding.md R90): one command per line, the mnemonic, comma-separated operands, `;` starts a
comment. A text is a list of characters, so that the kernel can read it (log entry 12). -/

namespace Sys2Proof.Machine

/-! ### Values -/

/-- The value of a digit character in base 10 or 16. -/
def digitValue (c : Char) : Option Nat :=
  if '0' ≤ c ∧ c ≤ '9' then some (c.toNat - '0'.toNat)
  else if 'a' ≤ c ∧ c ≤ 'f' then some (c.toNat - 'a'.toNat + 10)
  else if 'A' ≤ c ∧ c ≤ 'F' then some (c.toNat - 'A'.toNat + 10)
  else none

/-- The number that digits in the given base write, after the digits that gave `acc`. -/
def readDigits (base : Nat) : Nat → List Char → Option Nat
  | acc, [] => some acc
  | acc, c :: cs => do
    let d ← digitValue c
    if d < base then readDigits base (acc * base + d) cs else none

/-- An unsigned integer, decimal or 0x-hex. -/
def readNat : List Char → Option Nat
  | [] => none
  | '0' :: 'x' :: [] => none
  | '0' :: 'x' :: cs => readDigits 16 0 cs
  | cs => readDigits 10 0 cs

/-- A name of R90. -/
def readName : List Char → Option ConstName
  | ['P'] => some .p
  | ['N'] => some .n
  | ['G', 'x'] => some .gx
  | ['G', 'y'] => some .gy
  | ['R', '2'] => some .r2
  | ['2', 'G', 'x'] => some .gx2
  | ['2', 'G', 'y'] => some .gy2
  | _ => none

/-- A token of an expression. -/
inductive Token where
  | num (n : Nat)
  | name (c : ConstName)
  | plus | minus | star | caret | lpar | rpar
  deriving DecidableEq, Repr

/-- White space inside a line. -/
def isBlank (c : Char) : Bool := c == ' ' || c == '\t'

/-- The tokens of a text; the first argument bounds their number. -/
def tokens : Nat → List Char → Option (List Token)
  | _, [] => some []
  | 0, _ :: _ => none
  | n + 1, c :: cs =>
    if isBlank c then tokens n cs
    else if c == '+' then (tokens n cs).map (.plus :: ·)
    else if c == '-' then (tokens n cs).map (.minus :: ·)
    else if c == '*' then (tokens n cs).map (.star :: ·)
    else if c == '^' then (tokens n cs).map (.caret :: ·)
    else if c == '(' then (tokens n cs).map (.lpar :: ·)
    else if c == ')' then (tokens n cs).map (.rpar :: ·)
    else if c.isAlphanum then do
      let w := c :: cs.takeWhile Char.isAlphanum
      let t ← ((readName w).map Token.name).or ((readNat w).map Token.num)
      let r ← tokens n (cs.dropWhile Char.isAlphanum)
      pure (t :: r)
    else none

/-- What the parser of expressions looks for next. -/
inductive Goal where
  | sum
  | sumRest (e : Expr)
  | product
  | productRest (e : Expr)
  | factor
  | power (e : Expr)

/-- An expression and the tokens after it: `^` by a number binds before `*`, `*` before `+` and `-`, which associate to the left. The first
argument bounds the depth. -/
def parseExpr : Nat → Goal → List Token → Option (Expr × List Token)
  | 0, _, _ => none
  | n + 1, .sum, ts => do
    let (a, r) ← parseExpr n .product ts
    parseExpr n (.sumRest a) r
  | n + 1, .sumRest a, .plus :: ts => do
    let (b, r) ← parseExpr n .product ts
    parseExpr n (.sumRest (.add a b)) r
  | n + 1, .sumRest a, .minus :: ts => do
    let (b, r) ← parseExpr n .product ts
    parseExpr n (.sumRest (.sub a b)) r
  | _ + 1, .sumRest a, ts => some (a, ts)
  | n + 1, .product, ts => do
    let (a, r) ← parseExpr n .factor ts
    parseExpr n (.productRest a) r
  | n + 1, .productRest a, .star :: ts => do
    let (b, r) ← parseExpr n .factor ts
    parseExpr n (.productRest (.mul a b)) r
  | _ + 1, .productRest a, ts => some (a, ts)
  | n + 1, .factor, .num z :: ts => parseExpr n (.power (.lit z)) ts
  | n + 1, .factor, .name c :: ts => parseExpr n (.power (.name c)) ts
  | n + 1, .factor, .minus :: ts => do
    let (a, r) ← parseExpr n .factor ts
    pure (.sub (.lit 0) a, r)
  | n + 1, .factor, .lpar :: ts => do
    let (a, r) ← parseExpr n .sum ts
    match r with
    | .rpar :: r' => parseExpr n (.power a) r'
    | _ => none
  | _ + 1, .factor, _ => none
  | _ + 1, .power a, .caret :: .num z :: ts => some (.pow a z, ts)
  | _ + 1, .power a, ts => some (a, ts)

/-- A whole text as an expression. -/
def readExpr (cs : List Char) : Option Expr := do
  let ts ← tokens cs.length cs
  match ← parseExpr (6 * (ts.length + 1)) .sum ts with
  | (e, []) => some e
  | _ => none

/-! ### Lines -/

/-- A text without the blanks at its ends. -/
def trim (cs : List Char) : List Char := ((cs.dropWhile isBlank).reverse.dropWhile isBlank).reverse

/-- An operand: a register name, `=` and a value, or an integer. A register name is `F` and one digit, as R90 writes the names: `F03` is none of
them and is refused (log entry 12, DEDUCED). -/
def readOperand (cs : List Char) : Option Operand :=
  match trim cs with
  | [] => none
  | ['F', d] => (readDigits 10 0 [d]).map .reg
  | 'F' :: _ => none
  | '=' :: vs => (readExpr vs).map .value
  | '-' :: ds => (readNat ds).map fun n => .int (-n)
  | ds => (readNat ds).map fun n => .int n

/-- A mnemonic of R90 or R91, in the capitals it is written with. -/
def readMnemonic : List Char → Option Mnemonic
  | ['N', 'O', 'P'] => some .nop
  | ['L', 'D'] => some .ld
  | ['S', 'T'] => some .st
  | ['L', 'D', 'I'] => some .ldi
  | ['A', 'D', 'D'] => some .add
  | ['S', 'U', 'B'] => some .sub
  | ['N', 'E', 'G'] => some .neg
  | ['M', 'U', 'L'] => some .mul
  | ['M', 'O', 'N', 'T'] => some .mont
  | ['E', 'X', 'P'] => some .exp
  | ['I', 'N', 'V'] => some .inv
  | ['S', 'Q', 'R', 'T'] => some .sqrt
  | ['C', 'L', 'R'] => some .clr
  | ['O', 'N', 'E'] => some .one
  | ['S', 'Q', 'R'] => some .sqr
  | ['D', 'B', 'L'] => some .dbl
  | ['T', 'S', 'T'] => some .tst
  | ['M', 'O', 'V'] => some .mov
  | ['C', 'M', 'P', 'E', 'Q'] => some .cmpeq
  | ['.', 'w', 'o', 'r', 'd'] => some .word
  | _ => none

/-- The texts between the commas of a text. -/
def splitCommas : List Char → List (List Char)
  | [] => [[]]
  | c :: cs =>
    if c == ',' then [] :: splitCommas cs
    else
      match splitCommas cs with
      | [] => [[c]]
      | w :: ws => (c :: w) :: ws

/-- The commands of a line of text: none offered by an empty line or a line of comment alone, refused where R90 refuses it. -/
def assembleLine (line : List Char) : Option (List Command) :=
  match trim (line.takeWhile (· != ';')) with
  | [] => some []
  | cs => do
    let m ← readMnemonic (cs.takeWhile fun c => !isBlank c)
    match trim (cs.dropWhile fun c => !isBlank c) with
    | [] => assemble m []
    | rest => assemble m (← (splitCommas rest).mapM readOperand)

/-! ### Writing a command -/

/-- The name of a register. -/
def regText (r : Reg) : List Char := ['F', Char.ofNat ('0'.toNat + r.val)]

/-- The names of registers, with commas between. -/
def regsText : List Reg → List Char
  | [] => []
  | [r] => regText r
  | r :: rs => regText r ++ [',', ' '] ++ regsText rs

/-- The mnemonic of an opcode. -/
def opcodeText : Opcode → List Char
  | .nop => ['N', 'O', 'P']
  | .ld => ['L', 'D']
  | .st => ['S', 'T']
  | .ldi => ['L', 'D', 'I']
  | .add => ['A', 'D', 'D']
  | .sub => ['S', 'U', 'B']
  | .neg => ['N', 'E', 'G']
  | .mul => ['M', 'U', 'L']
  | .mont => ['M', 'O', 'N', 'T']
  | .exp => ['E', 'X', 'P']
  | .inv => ['I', 'N', 'V']
  | .sqrt => ['S', 'Q', 'R', 'T']

/-- The operands as R90 writes them, destination first; `value` is the text of LD's value. -/
def operandText (value : List Char) : Instr → List Char
  | .nop => []
  | .ld rd => regText rd ++ [',', ' ', '='] ++ value
  | .st rs1 => regText rs1
  | .ldi rd imm => regText rd ++ [',', ' ', Char.ofNat ('0'.toNat + imm.toNat)]
  | .add rd rs1 rs2 | .sub rd rs1 rs2 | .mul rd rs1 rs2 | .mont rd rs1 rs2 | .exp rd rs1 rs2 => regsText [rd, rs1, rs2]
  | .neg rd rs1 | .inv rd rs1 | .sqrt rd rs1 => regsText [rd, rs1]

/-- A command's line of text. -/
def lineText (value : List Char) (i : Instr) : List Char := opcodeText i.opcode ++ [' '] ++ operandText value i

end Sys2Proof.Machine
end

