-- ==== Sys2Proof/Machine/Client.lean ====
section
/-! DEFINITION. What the spec says of the engine's clients: byte order (20_memory.md R63), the reading of flags (60_exceptions.md R214),
the decode and point-addition formulas over the engine's operations (00_scope.md R8, R9). The blocks themselves are out of scope (R7). -/

namespace Sys2Proof.Machine

/-! ### Byte order (R63) -/

/-- Byte `k` of a big-endian 32-byte string is bits `255 − 8k : 248 − 8k` of the word. -/
def byteOf (w : Word) (k : Fin 32) : BitVec 8 := w.extractLsb' (248 - 8 * k.val) 8

/-- The 32 big-endian bytes of a word. -/
def bytesOfWord (w : Word) : Vector (BitVec 8) 32 := Vector.ofFn (byteOf w)

/-- The word of 32 big-endian bytes. -/
def wordOfBytes (b : Vector (BitVec 8) 32) : Word :=
  BitVec.ofNat 256 (b.toList.foldl (fun acc x => acc * 256 + x.toNat) 0)

/-! ### Errors (R10, R214): raised by the client, never by the engine -/

/-- The client error that engine results lead to. -/
inductive ClientError where
  | pointNotOnCurve
  deriving DecidableEq, Repr

/-- From the response of `LD` of x: GEP = 1 says that x is out of range. -/
def loadError (r : Response) : Option ClientError := if r.gep then some .pointNotOnCurve else none

/-- From the response of `SQRT` of x³ + 7: QR = 0 says that no y satisfies the curve equation. -/
def rootError (r : Response) : Option ClientError := if r.qr then none else some .pointNotOnCurve

/-! ### The decode client (R9) -/

/-- x³ + 7, formed with MUL and ADD. -/
def curveRhs (x : Word) : Word := addP (mulP (mulP x x) x) 7

/-- Of a root and its negation, the one of the wanted parity. -/
def selectRoot (wantOdd : Bool) (r : Word) : Word := if oddFlag r == wantOdd then r else negP r

/-- y from x and the prefix's parity, or the client's error. -/
def decodeY (wantOdd : Bool) (x : Word) : Except ClientError Word :=
  if P ≤ x.toNat then .error .pointNotOnCurve
  else
    let c := curveRhs x
    let r := powP c ESQRT
    if mulP r r == c then .ok (selectRoot wantOdd r) else .error .pointNotOnCurve

/-! ### The point-addition client's formulas (R8) -/

/-- The doubling slope `(3·x²) · modInverse(2y)`. -/
def slopeDouble (x y : Word) : Word := mulP (mulP 3 (mulP x x)) (powP (addP y y) EINV)

/-- The chord slope `(Qy − Py) · modInverse(Qx − Px)`. -/
def slopeChord (px py qx qy : Word) : Word := mulP (subP qy py) (powP (subP qx px) EINV)

/-- `x₃ = λ² − Px − Qx`. -/
def sumX (l px qx : Word) : Word := subP (subP (mulP l l) px) qx

/-- The result's y, `P − y₃` with `y₃ = Py + λ·(x₃ − Px)`. -/
def sumY (l px py x3 : Word) : Word := negP (addP py (mulP l (subP x3 px)))

end Sys2Proof.Machine
end

