-- ==== Sys2Proof/Machine/Datapath.lean ====
section
/-! DEFINITION. The conforming datapaths the spec gives as references (42_montgomery_mul.md R143, 43_modexp.md R164). They hold no
architectural state (10_state.md R45); the commands' meanings do not use them, and statements compare the two. -/

namespace Sys2Proof.Machine

/-- `u` of full-width REDC: `t = a·b`, `m = ((t mod R)·PP) mod R`, `u = (t + m·P)/R` (R143). -/
def redcU (a b : Nat) : Nat :=
  let t := a * b
  let m := t % R * PP % R
  (t + m * P) / R

/-- The one conditional subtraction (R143). -/
def condSub (u : Nat) : Nat := if P ≤ u then u - P else u

/-- `REDC(a, b)` (R143). -/
def redc (a b : Nat) : Nat := condSub (redcU a b)

/-- The accumulator of the word-serial form after `n` words of `b`, with words of `w` bits and the word constant `n0` (R143). Each
round adds `a` times a word of `b`, makes the low word zero with a multiple of P, and drops it (log entry 11). -/
def serialU (w n0 a b : Nat) : Nat → Nat
  | 0 => 0
  | n + 1 =>
    let t := serialU w n0 a b n + a * (b / 2 ^ (w * n) % 2 ^ w)
    let m := t % 2 ^ w * n0 % 2 ^ w
    (t + m * P) / 2 ^ w

/-- The word-serial form with 64-bit words. -/
def redc64 (a b : Nat) : Nat := condSub (serialU 64 N0 a b 4)

/-- The word-serial form with 32-bit words. -/
def redc32 (a b : Nat) : Nat := condSub (serialU 32 N0w32 a b 8)

/-- The loop of `MEXP` over the bits `i-1` down to 0 of the exponent (R164). -/
def mexpLoop (aM e : Nat) : Nat → Nat → Nat
  | 0, acc => acc
  | i + 1, acc =>
    let sq := redc acc acc
    mexpLoop aM e i (if e.testBit i then redc sq aM else sq)

/-- `MEXP(a, e)`: left-to-right square-and-multiply in Montgomery form over 256 bits of the exponent (R164). -/
def mexp (a e : Nat) : Nat := redc (mexpLoop (redc a R2) e 256 RMOD) 1

/-- An inverse by extended gcd: the Bézout coefficient of `a`, reduced; 0 for input 0, as R164 asks of such a datapath. -/
def gcdInv (a : Nat) : Nat := (Nat.gcdA a P % (P : Int)).toNat

end Sys2Proof.Machine
end

