-- ==== Sys2Proof/Machine/Ports.lean ====
section
/-! DEFINITION. The engine's output ports (10_state.md R38, R39) and how a client's wishes are listed as input pins. -/

namespace Sys2Proof.Machine

/-- The output ports (R38). -/
structure Outputs where
  cmdReady  : Bool
  rspValid  : Bool
  rspStatus : Status
  rspFlags  : FlagBits
  rspData   : Word
  deriving DecidableEq, Repr

/-- `rsp_valid = (PHASE == RESP)` (R39). -/
def State.rspValid (s : State) : Bool := s.phase == .resp

/-- `cmd_ready = (PHASE == IDLE) and (rst == 0)` (R39). -/
def State.cmdReady (s : State) (rst : Bool) : Bool := s.phase == .idle && !rst

/-- The output ports while `rst` has the given value (R39). While `rsp_valid = 0` the response ports show any values (log entry 6). -/
def State.outputs (s : State) (rst : Bool) : Outputs :=
  let r := if s.rspValid then s.rsp else Config.undrivenResponse s.edges
  { cmdReady := s.cmdReady rst
    rspValid := s.rspValid
    rspStatus := r.status
    rspFlags := r.flags
    rspData := r.data }

/-- The pins of one command at the least period (70_reset_and_hazards.md R240): offered at one edge, `n` edges in BUSY, then one edge
that takes the response; `rsp_ready` is held at 1. -/
def commandPins (c : Command) (n : Nat) : List Pins :=
  let wait : Pins := { Pins.quiet with rspReady := true }
  { wait with cmdValid := true, cmdWord := c.word, cmdData := c.data } :: (List.replicate n wait ++ [wait])

/-- The state in which a client issues one command next, with `LAT = n`, and takes its response. -/
def State.issue (s : State) (c : Command) (n : Nat) : State :=
  { s with pins := commandPins c n ++ s.pins, latencies := n :: s.latencies }

end Sys2Proof.Machine
end

