-- ==== Sys2Proof/Machine/Transaction.lean ====
section
/-! DEFINITION. The transaction-level view of 10_state.md R43, written from R43, R87 and the instruction rules on natural numbers, apart
from the machine: the relation that the behaviour at the ports equals. -/

namespace Sys2Proof.Machine

/-- The registers as natural numbers. -/
abbrev Values := Reg → Nat

/-- The mask of each assigned opcode number (30_encoding.md R83). -/
def maskOf : Nat → Nat
  | 0 => 0xFFFF
  | 1 => 0xF1FF
  | 2 => 0xFE3F
  | 3 => 0xF1F8
  | 6 | 10 | 11 => 0xF03F
  | _ => 0xF007

/-- `{GEP, QR, ODD, Z}` as a number (10_state.md R35). -/
def flagNumber (gep qr : Bool) (v : Nat) : Nat :=
  gep.toNat * 8 + qr.toNat * 4 + v % 2 * 2 + (decide (v = 0)).toNat

/-- An OK response. -/
def okResponse (gep qr : Bool) (v : Nat) : Response :=
  { status := 0b00, flags := BitVec.ofNat 4 (flagNumber gep qr v), data := BitVec.ofNat 256 v }

/-- `F[rd] <- v; respond(OK, flags of v, v)`. -/
def produce (f : Values) (rd : Reg) (gep qr : Bool) (v : Nat) : Values × Response :=
  (Function.update f rd v, okResponse gep qr v)

/-- `execute(F, word, data)` of R87 with the rules R100 to R163. -/
def execute (f : Values) (w : CmdWord) (data : Word) : Values × Response :=
  let op := w.toNat / 4096
  let rd : Reg := Fin.ofNat 8 (w.toNat / 512)
  let a := f (Fin.ofNat 8 (w.toNat / 64))
  let b := f (Fin.ofNat 8 (w.toNat / 8))
  if 12 ≤ op ∨ w.toNat &&& maskOf op ≠ op * 4096 then (f, { status := 0b01, flags := 0, data := 0 })
  else
    match op with
    | 0 => (f, { status := 0b00, flags := 0, data := 0 })
    | 1 =>
      let d := data.toNat
      produce f rd (decide (P ≤ d)) false (if P ≤ d then d - P else d)
    | 2 => (f, okResponse false false a)
    | 3 => produce f rd false false (w.toNat % 8)
    | 4 => produce f rd false false ((a + b) % P)
    | 5 => produce f rd false false (((a : Int) - b) % P).toNat
    | 6 => produce f rd false false (((P : Int) - a) % P).toNat
    | 7 => produce f rd false false (a * b % P)
    | 8 => produce f rd false false (a * b * RINV % P)
    | 9 => produce f rd false false (a ^ b % P)
    | 10 => produce f rd false false (a ^ (P - 2) % P)
    | _ =>
      let r := a ^ ((P + 1) / 4) % P
      produce f rd false (decide (r * r % P = a)) r

/-- The abstract phase, with what it carries (R43). -/
inductive View where
  | idle
  | busy (word : CmdWord) (data : Word)
  | resp (r : Response)

/-- The abstract state (R43). -/
structure Transaction where
  regs : Values
  view : View

/-- The transitions' names, with what passes at the ports. -/
inductive Event where
  | accept (word : CmdWord) (data : Word)
  | complete
  | deliver (r : Response)
  | reset

/-- The relation of R43. -/
inductive Transaction.Moves : Event → Transaction → Transaction → Prop where
  | accept (f : Values) (w : CmdWord) (d : Word) : Moves (.accept w d) ⟨f, .idle⟩ ⟨f, .busy w d⟩
  | complete (f : Values) (w : CmdWord) (d : Word) :
      Moves .complete ⟨f, .busy w d⟩ ⟨(execute f w d).1, .resp (execute f w d).2⟩
  | deliver (f : Values) (r : Response) : Moves (.deliver r) ⟨f, .resp r⟩ ⟨f, .idle⟩
  | reset (x : Transaction) : Moves .reset x ⟨fun _ => 0, .idle⟩

/-- The abstract state of a machine state; the unreachable phase code has none. -/
def State.abstract (s : State) : Option Transaction :=
  let f : Values := fun r => (s.reg r).toNat
  match s.phase with
  | .idle => some ⟨f, .idle⟩
  | .busy => some ⟨f, .busy s.cmdl.word s.cmdl.data⟩
  | .resp => some ⟨f, .resp s.rsp⟩
  | .unused => none

/-- The event of an edge with the given pins, or none where the engine only waits. -/
def State.event (s : State) (p : Pins) : Option Event :=
  if p.rst then some .reset
  else
    match s.phase with
    | .idle => if p.cmdValid then some (.accept p.cmdWord p.cmdData) else none
    | .busy => if s.busyLeft ≤ 1 then some .complete else none
    | .resp => if p.rspReady then some (.deliver s.rsp) else none
    | .unused => none

end Sys2Proof.Machine
end

