-- ==== Sys2Proof/Safety.lean ====
section
/-! DEFINITION. What counts as a safe state: the invariant that the spec's rules promise at every edge after reset, and as a safe step:
one that neither stops nor leaves it. -/

namespace Sys2Proof.Machine

/-- Every register holds a value in `[0, P)` (10_state.md R31). -/
def State.Canonical (s : State) : Prop := ∀ r : Reg, (s.reg r).toNat < P

/-- What RSP can hold (60_exceptions.md R203; 10_state.md R34, R35): status OK or ILLEGAL; ILLEGAL with flags 0000 and data 0; data in
`[0, P)`; ODD is the data's bit 0; Z only with data 0; QR and GEP never together. -/
structure Response.Legal (r : Response) : Prop where
  status : r.status = 0b00 ∨ r.status = 0b01
  illegal : r.status = 0b01 → r.flags = 0 ∧ r.data = 0
  canonical : r.data.toNat < P
  odd : r.odd = r.data.getLsbD 0
  zero : r.z = true → r.data = 0
  exclusive : (r.qr && r.gep) = false

/-- The invariant. The first three parts are the spec's; the last three tie the model's own count of BUSY edges to `LAT`
(`1 <= LAT <= MAXLAT`, 10_state.md R41). -/
structure State.Inv (s : State) : Prop where
  canonical : s.Canonical
  phase : s.phase ≠ .unused
  response : Response.Legal s.rsp
  busy : s.phase = .busy → 1 ≤ s.busyLeft ∧ s.busyLeft ≤ Config.maxLat
  waiting : s.phase ≠ .busy → s.busyLeft = 0
  latencies : ∀ n ∈ s.latencies, 1 ≤ n ∧ n ≤ Config.maxLat

/-- A safe step: the machine goes on, to a state that meets the invariant again. -/
def State.StepsSafely (s : State) : Prop := ∃ t, step s = .next t ∧ t.Inv

/-- The command `i` completes from `s` as a value-producing command that writes `Frd`: the value `v` is in `[0, P)`, it goes to `Frd` and
to the response with status OK and flags `{GEP, QR, ODD, Z}` as numbers, PHASE becomes RESP, and nothing else changes
(10_state.md R34, R41). -/
def Produces (i : Instr) (s : State) (rd : Reg) (gep qr : Bool) (v : Nat) : Prop :=
  v < P ∧
    exec i s = .next { s with
      regs := s.regs.set rd (BitVec.ofNat 256 v)
      rsp :=
        { status := 0b00
          flags := BitVec.ofNat 4 (gep.toNat * 8 + qr.toNat * 4 + v % 2 * 2 + (decide (v = 0)).toNat)
          data := BitVec.ofNat 256 v }
      phase := .resp }

end Sys2Proof.Machine
end

