-- ==== Sys2Proof/Certificates/Slice0/Obligations.lean ====
section
/-! DEFINITION. The statements for the provers, from the spec's numbered rules. -/

open Sys2Proof Sys2Proof.Machine

/-! ### Encoding -/

/-- R92: the worked encodings, both ways. -/
def Obligations.WorkedEncodingsBothWays : Prop :=
  ∀ x ∈ [(Instr.add 2 0 1, (0x4408 : CmdWord)), (.sqrt 3 1, 0xB640), (.inv 4 4, 0xA900), (.ldi 2 7, 0x3407), (.st 3, 0x20C0),
      (.exp 4 0 3, 0x9818)],
    encode x.1 = x.2 ∧ decode x.2 = .ok x.1

/-- Decoding an encoded command gives it back, with every operand at every value. -/
def Obligations.DecodeOfEncode : Prop :=
  ∀ i : Instr, i.wf = true → decode (encode i) = .ok i

/-- A legal word is the encoding of what it decodes to: no bit of it is dropped. -/
def Obligations.EncodeOfDecode : Prop :=
  ∀ (w : CmdWord) (i : Instr), decode w = .ok i → encode i = w

/-- R81: the fields of a command's word stand where the rule puts them, and reading them from the word gives them back. -/
def Obligations.FieldsStandInTheWord : Prop :=
  ∀ i : Instr,
    let x := i.fields
    (encode i).toNat = x.op * 4096 + x.rd * 512 + x.rs1 * 64 + x.rs2 * 8 + x.imm ∧
      (CmdWord.op (encode i)).toNat = x.op ∧ (CmdWord.rd (encode i)).val = x.rd ∧ (CmdWord.rs1 (encode i)).val = x.rs1 ∧
      (CmdWord.rs2 (encode i)).val = x.rs2 ∧ (CmdWord.imm (encode i)).toNat = x.imm

/-- R83, R88: exactly the words with opcode 0 to 0xB and zero in every field that the opcode's format (R82) does not carry are legal,
and a legal word decodes to a command of the row it selects; a reserved opcode is named as such. -/
def Obligations.LegalExactlyByTheFormats : Prop :=
  ∀ w : CmdWord,
    let n := w.toNat
    (∀ i, decode w = .ok i →
      i.opcode.number = n / 4096 ∧ w &&& i.opcode.mask = i.opcode.pattern ∧
        ∀ o : Opcode, w &&& o.mask = o.pattern → o = i.opcode) ∧
    ((∃ i, decode w = .ok i) ↔
      Fields.wf ⟨n / 4096, n / 512 % 8, n / 64 % 8, n / 8 % 8, n % 8⟩ = true) ∧
    (decode w = .error .reservedOpcode ↔ 0xC ≤ n / 4096)

/-- R83: 2833 of the 65536 words are legal. -/
def Obligations.LegalWordCount : Prop :=
  ((List.range 65536).countP fun n => (decodeTableWord 16 n).isSome) = 2833

/-! ### One edge -/

/-- A step in the last BUSY edge, without reset, runs the decoded command: it is `exec` of it, after the edge's pins are used up and the
model's count of BUSY edges is down to 0. -/
def Obligations.StepRunsDecodedCommand : Prop :=
  ∀ (s : State) (i : Instr),
    s.nextPins.rst = false → s.phase = .busy → s.busyLeft ≤ 1 → decode s.cmdl.word = .ok i →
      step s = exec i { s.advance with busyLeft := 0 }

/-- The host's placement: whatever the state, the very next step runs the command that the table word decodes to. -/
def Obligations.PlacedWordRunsNext : Prop :=
  ∀ (s : State) (nbits w : Nat) (i : Instr), decodeTableWord nbits w = some i →
    ∃ t : State, step (s.withFetchWord nbits w) = exec i t ∧ t.regs = s.regs ∧ t.rsp = s.rsp ∧ t.cmdl.data = s.cmdl.data ∧
      t.pins = s.pins ∧ t.latencies = s.latencies

/-- R200, R201: a word whose opcode is 0xC to 0xF, or with a one in a must-be-zero field of its format, completes with status ILLEGAL,
flags 0000 and data 0, and changes no register and nothing else of the engine. -/
def Obligations.IllegalWordChangesNoRegister : Prop :=
  ∀ s : State,
    let n := s.cmdl.word.toNat
    s.nextPins.rst = false → s.phase = .busy → s.busyLeft ≤ 1 →
    (0xC ≤ n / 4096 ∨ ∃ o, Opcode.ofNumber (n / 4096) = some o ∧
      ((o.format.hasRd = false ∧ n / 512 % 8 ≠ 0) ∨ (o.format.hasRs1 = false ∧ n / 64 % 8 ≠ 0) ∨
        (o.format.hasRs2 = false ∧ n / 8 % 8 ≠ 0) ∨ (o.format.hasImm = false ∧ n % 8 ≠ 0))) →
    step s = .next { s.advance with
      busyLeft := 0
      rsp := { status := 0b01, flags := 0b0000, data := 0 }
      phase := .resp }

/-- R44: the state after reset. -/
def Obligations.ResetValues : Prop :=
  (∀ r : Reg, State.reset.reg r = 0) ∧ State.reset.phase = .idle ∧ State.reset.phase.code = 0b00 ∧
    State.reset.rsp = { status := 0b00, flags := 0b0000, data := 0 } ∧ State.reset.cmdl = { word := 0x0000, data := 0 }

/-- R230, R231, R205: at an edge with `rst = 1`, whatever else is asked and whatever the state, every piece of the engine's state takes
its reset value; `cmd_ready` is 0 while `rst = 1`. -/
def Obligations.ResetEdgeOutranksEverything : Prop :=
  ∀ s : State, s.nextPins.rst = true →
    s.cmdReady true = false ∧
      ∃ t, step s = .next t ∧ t.regs = State.reset.regs ∧ t.phase = State.reset.phase ∧ t.rsp = State.reset.rsp ∧
        t.cmdl = State.reset.cmdl ∧ t.cmdReady true = false

/-- R40: acceptance in IDLE where `cmd_valid = 1`, and nothing where `cmd_valid = 0`; at any edge that is no acceptance edge the values on
`cmd_word` and `cmd_data` have no effect. -/
def Obligations.AcceptanceSamplesTheCommand : Prop :=
  (∀ s : State, s.nextPins.rst = false → s.phase = .idle →
    (s.nextPins.cmdValid = true →
      ∃ t, step s = .next t ∧ t.cmdl = { word := s.nextPins.cmdWord, data := s.nextPins.cmdData } ∧ t.phase = .busy ∧
        t.regs = s.regs ∧ t.rsp = s.rsp) ∧
    (s.nextPins.cmdValid = false → step s = .next s.advance)) ∧
  (∀ (s : State) (p : Pins) (rest : List Pins) (w : CmdWord) (d : Word),
    p.rst = true ∨ s.phase ≠ .idle ∨ p.cmdValid = false →
      step { s with pins := { p with cmdWord := w, cmdData := d } :: rest } = step { s with pins := p :: rest })

/-- The latency an accepted command gets is between 1 and MAXLAT, where every listed latency is. -/
def Obligations.AcceptedLatencyInBounds : Prop :=
  ∀ s : State, s.nextPins.rst = false → s.phase = .idle → s.nextPins.cmdValid = true →
    (∀ n ∈ s.latencies, 1 ≤ n ∧ n ≤ Config.maxLat) →
      ∃ t, step s = .next t ∧ 1 ≤ t.busyLeft ∧ t.busyLeft ≤ Config.maxLat

/-- An edge in BUSY before the last one, without reset, only counts; the command port and `rsp_ready` are ignored. -/
def Obligations.BusyEdgeOnlyCounts : Prop :=
  ∀ s : State, s.nextPins.rst = false → s.phase = .busy → 1 < s.busyLeft →
    step s = .next { s.advance with busyLeft := s.busyLeft - 1 }

/-- R42: delivery in RESP where `rsp_ready = 1`, with RSP kept; where `rsp_ready = 0` the engine holds. -/
def Obligations.DeliveryKeepsTheResponse : Prop :=
  ∀ s : State, s.nextPins.rst = false → s.phase = .resp →
    (s.nextPins.rspReady = true → step s = .next { s.advance with phase := .idle }) ∧
      (s.nextPins.rspReady = false → step s = .next s.advance)

/-- R39: `cmd_ready` and `rsp_valid`, and the response ports while `rsp_valid = 1`; the first two do not depend on the other inputs. -/
def Obligations.OutputPortsFollowPhase : Prop :=
  ∀ (s : State) (rst : Bool),
    ((s.outputs rst).cmdReady = true ↔ s.phase = .idle ∧ rst = false) ∧
      ((s.outputs rst).rspValid = true ↔ s.phase = .resp) ∧
      (s.phase = .resp →
        (s.outputs rst).rspStatus = s.rsp.status ∧ (s.outputs rst).rspFlags = s.rsp.flags ∧
          (s.outputs rst).rspData = s.rsp.data) ∧
      ∀ ps : List Pins,
        (({ s with pins := ps } : State).outputs rst).cmdReady = (s.outputs rst).cmdReady ∧
          (({ s with pins := ps } : State).outputs rst).rspValid = (s.outputs rst).rspValid

/-- R36: no step produces the code `0b11`, the codes are as the rule gives them, and PHASE changes only by acceptance, completion, delivery
and reset. -/
def Obligations.PhaseMovesOnlyByTheRules : Prop :=
  Phase.code .idle = 0b00 ∧ Phase.code .busy = 0b01 ∧ Phase.code .resp = 0b10 ∧
    ∀ s t : State, step s = .next t →
      t.phase.code ≠ 0b11 ∧
        (t.phase ≠ s.phase →
          (s.nextPins.rst = true ∧ t.phase = .idle) ∨
            (s.nextPins.rst = false ∧
              ((s.phase = .idle ∧ s.nextPins.cmdValid = true ∧ t.phase = .busy) ∨
                (s.phase = .busy ∧ s.busyLeft ≤ 1 ∧ t.phase = .resp) ∨
                (s.phase = .resp ∧ s.nextPins.rspReady = true ∧ t.phase = .idle))))

/-- Registers and RSP change only at a completion edge, and CMDL only at an acceptance edge, reset apart: the response stays as it is until
the next completion, and no command is accepted while one is in the engine. -/
def Obligations.StateChangesOnlyAtItsEdge : Prop :=
  ∀ s : State, s.nextPins.rst = false → s.phase ≠ .unused →
    ∃ t, step s = .next t ∧
      (¬(s.phase = .busy ∧ s.busyLeft ≤ 1) → t.regs = s.regs ∧ t.rsp = s.rsp) ∧
      (¬(s.phase = .idle ∧ s.nextPins.cmdValid = true) → t.cmdl = s.cmdl)

/-! ### Runs of edges -/

/-- R41: the command accepted at an edge completes exactly `LAT` edges later, when no reset intervenes. `LAT` is the model's: the listed
latency, or the free one where none is listed (log entry 3). Before that the engine is BUSY
with the registers and RSP unchanged, and the completion edge executes the sampled command on the registers as they were. -/
def Obligations.CompletesExactlyLatEdgesLater : Prop :=
  ∀ s : State,
    let c : Command := { word := s.nextPins.cmdWord, data := s.nextPins.cmdData }
    let lat := s.advance.nextLatency c
    s.phase = .idle → s.nextPins.cmdValid = true → (∀ k ≤ lat, (s.pinsAt k).rst = false) →
      1 ≤ lat ∧
      (∀ k, 1 ≤ k → k ≤ lat →
        ∃ t, run k s = .next t ∧ t.phase = .busy ∧ t.regs = s.regs ∧ t.rsp = s.rsp ∧ t.cmdl = c) ∧
      ∃ t u : State, t.regs = s.regs ∧ t.cmdl = c ∧ complete t = .next u ∧ run (lat + 1) s = .next u ∧ u.phase = .resp

/-- R43, R239: a BUSY engine completes within MAXLAT edges when no reset intervenes. -/
def Obligations.BusyCompletesWithinMaxLat : Prop :=
  ∀ s : State, s.Inv → s.phase = .busy → (∀ k < Config.maxLat, (s.pinsAt k).rst = false) →
    ∃ n t, 1 ≤ n ∧ n ≤ Config.maxLat ∧ run n s = .next t ∧ t.phase = .resp

/-- R42, R236: in RESP a client that never raises `rsp_ready` keeps the engine there, with the response offered unchanged and no command
accepted, for any number of edges. -/
def Obligations.UntakenResponseStaysOffered : Prop :=
  ∀ (s : State) (n : Nat), s.phase = .resp →
    (∀ k < n, (s.pinsAt k).rst = false ∧ (s.pinsAt k).rspReady = false) →
      ∃ t, run n s = .next t ∧ t.phase = .resp ∧ t.regs = s.regs ∧ t.rsp = s.rsp ∧ t.cmdl = s.cmdl ∧
        ∀ rst, t.cmdReady rst = false

/-- R240: with `rsp_ready` held at 1, a command offered in IDLE is accepted at the first edge, completes `LAT` edges later and is delivered
one edge after that; the engine is then in IDLE, with the command's registers and response, ready for the next. After each edge before
that `cmd_ready = 0`, so no command can be accepted earlier. The pins used up and the listed latency are the model's (log entries 2, 3). -/
def Obligations.LeastCommandPeriod : Prop :=
  ∀ (s : State) (c : Command) (n : Nat), s.phase = .idle → 1 ≤ n →
    (∀ k, 1 ≤ k → k ≤ n + 1 → ∃ x, run k (s.issue c n) = .next x ∧ x.cmdl = c ∧ ∀ rst, x.cmdReady rst = false) ∧
    ∃ t u v : State,
      run (n + 1) (s.issue c n) = .next u ∧ u.phase = .resp ∧
      run (n + 2) (s.issue c n) = .next v ∧ v.phase = .idle ∧ v.regs = u.regs ∧ v.rsp = u.rsp ∧
      v.cmdReady false = true ∧ v.pins = s.pins ∧ v.latencies = s.latencies ∧
      t.regs = s.regs ∧ t.cmdl = c ∧ complete t = .next u

/-! ### Invariants and the transaction-level view -/

/-- R31: every register holds a value in `[0, P)` at every edge: reset gives it and every edge keeps it. -/
def Obligations.RegistersStayCanonical : Prop :=
  State.reset.Canonical ∧ ∀ s t : State, s.Canonical → step s = .next t → t.Canonical

/-- The state after reset meets the invariant. -/
def Obligations.ResetMeetsTheInvariant : Prop := State.reset.Inv

/-- From every state that meets the invariant the machine goes on, to a state that meets it: it never stops. -/
def Obligations.EveryStepIsSafe : Prop := ∀ s : State, s.Inv → s.StepsSafely

/-- R43: each edge moves the abstract state by the relation's transition for what the pins ask, or leaves it where the engine only waits;
the unreachable phase code apart, every edge goes on. -/
def Obligations.EdgesRefineTransactions : Prop :=
  ∀ (s : State) (a : Transaction), s.abstract = some a →
    ∃ t b, step s = .next t ∧ t.abstract = some b ∧
      match s.event s.nextPins with
      | some e => Transaction.Moves e a b
      | none => b = a

/-- R41, R67: `execute` depends only on the registers, the word and the data: two completion edges that agree on them, whatever else
differs (the latency, the pins, the earlier response), give the same registers and response. -/
def Obligations.ResultDependsOnlyOnCommandAndRegisters : Prop :=
  ∀ s s' : State, s.regs = s'.regs → s.cmdl = s'.cmdl →
    ∃ t t', complete s = .next t ∧ complete s' = .next t' ∧ t.regs = t'.regs ∧ t.rsp = t'.rsp ∧
      t.phase = .resp ∧ t'.phase = .resp

/-- R86: `cmd_data` is read only by LD: every other command, an ILLEGAL one too, gives the same whatever it is. LD accepts any
value. -/
def Obligations.CmdDataReadOnlyByLd : Prop :=
  (∀ (i : Instr) (s : State) (d : Word), i.opcode ≠ .ld →
    ∃ t, exec i s = .next t ∧
      exec i { s with cmdl := { s.cmdl with data := d } } = .next { t with cmdl := { t.cmdl with data := d } }) ∧
  (∀ (s : State) (d : Word), (¬∃ i, decode s.cmdl.word = .ok i) →
    ∃ t, complete s = .next t ∧
      complete { s with cmdl := { s.cmdl with data := d } } = .next { t with cmdl := { t.cmdl with data := d } }) ∧
  (∀ (rd : Reg) (s : State) (d : Word), ∃ t,
    exec (.ld rd) { s with cmdl := { s.cmdl with data := d } } = .next t ∧ (t.reg rd).toNat = d.toNat % P)

/-- R202, R203: a completion edge answers status OK exactly for a legal word and ILLEGAL for every other; the reserved codes never
appear. -/
def Obligations.StatusOkExactlyForLegalWords : Prop :=
  ∀ s : State, ∃ t, complete s = .next t ∧
    (t.rsp.status = 0b00 ↔ ∃ i, decode s.cmdl.word = .ok i) ∧
    (t.rsp.status = 0b01 ↔ ¬∃ i, decode s.cmdl.word = .ok i) ∧ t.rsp.status ≠ 0b10 ∧ t.rsp.status ≠ 0b11

/-! ### Frames and flags, for all commands -/

/-- The frame of every command: it completes; every register but its destination keeps its value, and a destination holds the
response's data; CMDL and all that is not the engine's stay; PHASE becomes RESP. -/
def Obligations.CommandFrame : Prop :=
  ∀ (i : Instr) (s : State), ∃ t, exec i s = .next t ∧
    (∀ r : Reg, i.dest ≠ some r → t.reg r = s.reg r) ∧ (∀ r : Reg, i.dest = some r → t.reg r = t.rsp.data) ∧
    t.cmdl = s.cmdl ∧ t.busyLeft = s.busyLeft ∧ t.pins = s.pins ∧ t.latencies = s.latencies ∧ t.edges = s.edges ∧
    t.phase = .resp

/-- R30: eight registers, none hardwired and none an alias of another: a register reads back what is written to it, and a write leaves the
other seven. NOP, ST and an ILLEGAL command write no register; every other command writes the one named in `rd`. -/
def Obligations.RegistersAreIndependent : Prop :=
  (∀ (s : State) (i : Reg) (v : Word), (s.writeReg i v).reg i = v ∧ ∀ j, j ≠ i → (s.writeReg i v).reg j = s.reg j) ∧
  (∀ s : State, ∃ t, exec .nop s = .next t ∧ t.regs = s.regs) ∧
  (∀ (s : State) (r : Reg), ∃ t, exec (.st r) s = .next t ∧ t.regs = s.regs) ∧
  (∀ s : State, (¬∃ i, decode s.cmdl.word = .ok i) → ∃ t, complete s = .next t ∧ t.regs = s.regs) ∧
  (∀ (i : Instr) (s : State) (rd : Reg), i.dest = some rd →
    ∃ t, exec i s = .next t ∧ t.regs = s.regs.set rd t.rsp.data) ∧
  (∀ i : Instr, i.dest = none ↔ i.opcode = .nop ∨ i.opcode = .st)

/-- R34, R35: the flags of every completion. -/
def Obligations.FlagsOfEveryResponse : Prop :=
  (∀ s : State, ∃ t, exec .nop s = .next t ∧ t.rsp.flags = 0b0000) ∧
  (∀ s : State, (¬∃ i, decode s.cmdl.word = .ok i) → ∃ t, complete s = .next t ∧ t.rsp.flags = 0b0000) ∧
  (∀ (i : Instr) (s : State), i.opcode ≠ .nop → ∃ t, exec i s = .next t ∧
    (t.rsp.z = true ↔ t.rsp.data = 0) ∧
    (t.rsp.odd = true ↔ t.rsp.data.toNat % 2 = 1) ∧
    (t.rsp.qr = true ↔ ∃ rd rs1, i = .sqrt rd rs1 ∧ t.rsp.data.toNat * t.rsp.data.toNat % P = (s.reg rs1).toNat) ∧
    (t.rsp.gep = true ↔ ∃ rd, i = .ld rd ∧ P ≤ s.cmdl.data.toNat))

/-! ### Each command -/

/-- R100. -/
def Obligations.NopResponds : Prop :=
  encode .nop = 0x0000 ∧
    ∀ s : State, exec .nop s = .next { s with rsp := { status := 0b00, flags := 0b0000, data := 0 }, phase := .resp }

/-- R101: one subtraction of P at most gives the data mod P, and GEP says whether it was made. -/
def Obligations.LdReducesAndReportsRange : Prop :=
  ∀ (rd : Reg) (s : State),
    let d := s.cmdl.data.toNat
    let v := if P ≤ d then d - P else d
    encode (.ld rd) &&& 0xF1FF = 0x1000 ∧ Produces (.ld rd) s rd (decide (P ≤ d)) false v ∧ v = d % P

/-- R102: the response is the register's value with its flags, nothing but RSP and PHASE changes, and repeating ST gives the same
response. -/
def Obligations.StReturnsTheRegister : Prop :=
  ∀ (rs1 : Reg) (s : State),
    let v := s.reg rs1
    let t : State := { s with
      rsp :=
        { status := 0b00
          flags := BitVec.ofNat 4 (v.toNat % 2 * 2 + (decide (v.toNat = 0)).toNat)
          data := v }
      phase := .resp }
    encode (.st rs1) &&& 0xFE3F = 0x2000 ∧ exec (.st rs1) s = .next t ∧ exec (.st rs1) t = .next t

/-- R103: the immediate, an unsigned number in 0..7, whatever its top bit. -/
def Obligations.LdiLoadsTheConstant : Prop :=
  ∀ (rd : Reg) (imm : BitVec 3) (s : State),
    encode (.ldi rd imm) &&& 0xF1F8 = 0x3000 ∧ Produces (.ldi rd imm) s rd false false imm.toNat ∧ imm.toNat ≤ 7

/-- R121: the sum mod P; for canonical operands the sum itself or the sum less P. -/
def Obligations.AddIsFieldAddition : Prop :=
  ∀ (rd rs1 rs2 : Reg) (s : State),
    let a := (s.reg rs1).toNat
    let b := (s.reg rs2).toNat
    encode (.add rd rs1 rs2) &&& 0xF007 = 0x4000 ∧ Produces (.add rd rs1 rs2) s rd false false ((a + b) % P) ∧
      (s.Canonical → (a + b) % P = if a + b < P then a + b else a + b - P)

/-- R122: the difference mod P, never negative; Z exactly when the operands are equal. -/
def Obligations.SubIsFieldSubtraction : Prop :=
  ∀ (rd rs1 rs2 : Reg) (s : State),
    let a := (s.reg rs1).toNat
    let b := (s.reg rs2).toNat
    let v := (((a : Int) - b) % (P : Int)).toNat
    encode (.sub rd rs1 rs2) &&& 0xF007 = 0x5000 ∧ Produces (.sub rd rs1 rs2) s rd false false v ∧
      (s.Canonical → v = (if b ≤ a then a - b else a + P - b) ∧ (v = 0 ↔ s.reg rs1 = s.reg rs2))

/-- R123: 0 maps to 0; the negation of a nonzero value has the other parity; negating twice gives the value back. -/
def Obligations.NegIsFieldNegation : Prop :=
  ∀ (rd rs1 : Reg) (s : State), s.Canonical →
    let a := (s.reg rs1).toNat
    encode (.neg rd rs1) &&& 0xF03F = 0x6000 ∧ Produces (.neg rd rs1) s rd false false ((P - a) % P) ∧ (a = 0 → (P - a) % P = 0) ∧
      (a ≠ 0 → oddFlag (negP (s.reg rs1)) = !oddFlag (s.reg rs1)) ∧ negP (negP (s.reg rs1)) = s.reg rs1

/-- R142, R144: the exact product, reduced; it is the Montgomery product of the Montgomery product and `R2`. -/
def Obligations.MulIsFieldMultiplication : Prop :=
  ∀ (rd rs1 rs2 : Reg) (s : State),
    let a := s.reg rs1
    let b := s.reg rs2
    encode (.mul rd rs1 rs2) &&& 0xF007 = 0x7000 ∧
      Produces (.mul rd rs1 rs2) s rd false false (a.toNat * b.toNat % P) ∧
      montP (montP a b) (BitVec.ofNat 256 R2) = mulP a b

/-- R141: the exact product times `R⁻¹`, reduced, with the rule's corner cases: into and out of Montgomery form, 1, 0, and the operands'
order. -/
def Obligations.MontIsMontgomeryProduct : Prop :=
  (∀ (rd rs1 rs2 : Reg) (s : State),
    encode (.mont rd rs1 rs2) &&& 0xF007 = 0x8000 ∧
      Produces (.mont rd rs1 rs2) s rd false false ((s.reg rs1).toNat * (s.reg rs2).toNat * RINV % P)) ∧
  R * RINV % P = 1 ∧ (montP 1 1).toNat = RINV ∧
  ∀ x y : Word, x.toNat < P → y.toNat < P →
    montP x (BitVec.ofNat 256 RMOD) = x ∧ (montP x (BitVec.ofNat 256 R2)).toNat = x.toNat * R % P ∧
      (montP x 1).toNat = x.toNat * RINV % P ∧ montP (montP x (BitVec.ofNat 256 R2)) 1 = x ∧ montP x y = montP y x ∧ montP 0 y = 0

/-- R161: the power, with `0^0 = 1`; the exponent is a natural number, the register's value. With E_INV as the exponent EXP gives INV's
result, and with E_SQRT the data of SQRT. -/
def Obligations.ExpIsFieldPower : Prop :=
  ∀ (rd rs1 rs2 : Reg) (s : State),
    encode (.exp rd rs1 rs2) &&& 0xF007 = 0x9000 ∧
      Produces (.exp rd rs1 rs2) s rd false false ((s.reg rs1).toNat ^ (s.reg rs2).toNat % P) ∧
      ((s.reg rs2).toNat = EINV → exec (.exp rd rs1 rs2) s = exec (.inv rd rs1) s) ∧
      ((s.reg rs2).toNat = ESQRT →
        ∃ t u, exec (.exp rd rs1 rs2) s = .next t ∧ exec (.sqrt rd rs1) s = .next u ∧ t.regs = u.regs ∧
          t.rsp.data = u.rsp.data)

/-- R162: `x^(P−2) mod P`, status OK on every operand; on a canonical operand the result is 0 exactly when the operand is 0. -/
def Obligations.InvIsFermatPower : Prop :=
  ∀ (rd rs1 : Reg) (s : State),
    let a := (s.reg rs1).toNat
    let v := a ^ (P - 2) % P
    encode (.inv rd rs1) &&& 0xF03F = 0xA000 ∧ Produces (.inv rd rs1) s rd false false v ∧ (s.Canonical → (v = 0 ↔ a = 0))

/-- R163: `x^((P+1)/4) mod P`, written whether or not `x` has a root; QR compares its square with the operand read before the write, so
`rd = rs1` is no special case. -/
def Obligations.SqrtIsRootPowerWithCheck : Prop :=
  ∀ (rd rs1 : Reg) (s : State),
    let a := (s.reg rs1).toNat
    let r := a ^ ((P + 1) / 4) % P
    encode (.sqrt rd rs1) &&& 0xF03F = 0xB000 ∧ Produces (.sqrt rd rs1) s rd false (decide (r * r % P = a)) r

/-! ### The field -/

/-- R140, R160: the constants are what their formulas say. -/
def Obligations.RomConstantsMeetTheirFormulas : Prop :=
  R = 2 ^ 256 ∧ RMOD = R % P ∧ RMOD = 2 ^ 32 + 977 ∧ R2 = R ^ 2 % P ∧ RINV < P ∧ R * RINV % P = 1 ∧ PP < R ∧ (P * PP + 1) % R = 0 ∧
    N0 < 2 ^ 64 ∧ (P * N0 + 1) % 2 ^ 64 = 0 ∧ N0w32 < 2 ^ 32 ∧ (P * N0w32 + 1) % 2 ^ 32 = 0 ∧
    EINV = P - 2 ∧ 4 * ESQRT = P + 1

/-- R3, R4: the value of P, its residues, and that it is prime. -/
def Obligations.FieldPrimeIsPrime : Prop :=
  P = 0xfffffffffffffffffffffffffffffffffffffffffffffffffffffffefffffc2f ∧ P % 4 = 3 ∧ P % 8 = 7 ∧ P % 3 = 1 ∧ Nat.Prime P

/-- R143: full-width REDC gives the Montgomery product for every pair of canonical operands, with `u < 2P`. -/
def Obligations.RedcComputesMont : Prop :=
  ∀ a b : Word, a.toNat < P → b.toNat < P →
    redcU a.toNat b.toNat < 2 * P ∧ redc a.toNat b.toNat = (montP a b).toNat ∧
      redc (redc a.toNat b.toNat) R2 = (mulP a b).toNat

/-- R143: the word-serial form with 64-bit or 32-bit words gives the same `u`. R143 names the form only; its shape here, on values without limb
carries, is the model's (log entry 11, DEDUCED). -/
def Obligations.WordSerialGivesTheSameU : Prop :=
  ∀ a b : Nat, a < P → b < P → serialU 64 N0 a b 4 = redcU a b ∧ serialU 32 N0w32 a b 8 = redcU a b

/-- R164: square-and-multiply in Montgomery form over REDC gives the power, for canonical base and exponent, `MEXP(0, 0) = 1` included. -/
def Obligations.MexpComputesPower : Prop :=
  ∀ a e : Word, a.toNat < P → e.toNat < P → mexp a.toNat e.toNat = (powP a e.toNat).toNat ∧ mexp 0 0 = 1

/-- R164: an inverse by extended gcd gives INV's result, 0 for input 0 included. The gcd method is the model's choice, Mathlib's Bezout coefficient
`Nat.gcdA` (log entry 11, PRESUMED). -/
def Obligations.GcdInverseConforms : Prop :=
  ∀ a : Word, a.toNat < P → gcdInv a.toNat = (powP a EINV).toNat

/-- R165: the laws the source states, in engine terms: `INV(INV(a)) = a` for `a ≠ 0`; `INV(1) = 1`; `SQRT(1) = 1`; `SQRT(4) = 2`; and QR = 1 with
`MUL(r, r) = a` when `a` is a square. -/
def Obligations.InverseAndRootLaws : Prop :=
  ∀ (rd rs1 : Reg) (s : State), s.Canonical →
    ∃ t u v : State, exec (.inv rd rs1) s = .next t ∧ exec (.inv rd rd) t = .next u ∧ exec (.sqrt rd rs1) s = .next v ∧
      (s.reg rs1 ≠ 0 → u.reg rd = s.reg rs1 ∧ mulP (s.reg rs1) (t.reg rd) = 1) ∧
      (s.reg rs1 = 1 → t.reg rd = 1 ∧ v.reg rd = 1) ∧ (s.reg rs1 = 4 → v.reg rd = 2) ∧
      ∀ b : Word, mulP b b = s.reg rs1 →
        v.rsp.qr = true ∧ ∃ w, exec (.mul rd rd rd) v = .next w ∧ w.reg rd = s.reg rs1

/-- R163: QR is 1 exactly when the operand is a square mod P, 0 included; a non-residue's result squares to its negation. -/
def Obligations.QrFlagDecidesSquares : Prop :=
  ∀ (rd rs1 : Reg) (s : State), s.Canonical →
    ∃ t, exec (.sqrt rd rs1) s = .next t ∧
      (t.rsp.qr = true ↔ ∃ b : Nat, b < P ∧ b * b % P = (s.reg rs1).toNat) ∧
      (t.rsp.qr = false → (mulP (t.reg rd) (t.reg rd)).toNat = P - (s.reg rs1).toNat)

/-! ### The client's side -/

/-- R63: byte `k` of a big-endian 32-byte string is bits `255 − 8k : 248 − 8k` of the word, both ways. -/
def Obligations.BigEndianBytes : Prop :=
  (∀ (b : Vector (BitVec 8) 32) (k : Fin 32), (wordOfBytes b).extractLsb' (248 - 8 * k.val) 8 = b[k]) ∧
    ∀ w : Word, wordOfBytes (bytesOfWord w) = w

/-- R91: the pseudo-instructions' expansions; MOV's two commands copy a canonical register, also onto itself; CMPEQ's Z says whether two
canonical registers are equal; TST's flags are those of the register. -/
def Obligations.PseudoInstructions : Prop :=
  (∀ d a b : Reg,
    assemble .clr [.reg d] = some [plain (.ldi d 0)] ∧ assemble .one [.reg d] = some [plain (.ldi d 1)] ∧
    assemble .sqr [.reg d, .reg a] = some [plain (.mul d a a)] ∧ assemble .dbl [.reg d, .reg a] = some [plain (.add d a a)] ∧
    assemble .tst [.reg a] = some [plain (.st a)] ∧
    assemble .mov [.reg d, .reg a] = some [plain (.neg d a), plain (.neg d d)] ∧
    assemble .cmpeq [.reg d, .reg a, .reg b] = some [plain (.sub d a b)]) ∧
  (∀ (d a : Reg) (s : State), s.Canonical →
    ∃ t u, exec (.neg d a) s = .next t ∧ exec (.neg d d) t = .next u ∧ u.reg d = s.reg a ∧
      ∀ r, r ≠ d → u.reg r = s.reg r) ∧
  (∀ (d a b : Reg) (s : State), s.Canonical →
    ∃ t, exec (.sub d a b) s = .next t ∧ (t.rsp.z = true ↔ s.reg a = s.reg b)) ∧
  (∀ (a : Reg) (s : State), ∃ t, exec (.st a) s = .next t ∧ (t.rsp.z = true ↔ s.reg a = 0) ∧
    (t.rsp.odd = true ↔ (s.reg a).toNat % 2 = 1))

/-- R90: a line is accepted exactly when its operands fit a form of its mnemonic. So a wrong operand count is refused, and, at every operand
position of every mnemonic, a register name outside F0..F7, an integer outside 0..7 (below 65536 in a raw word) and a value outside
`[0, 2^256)`. Every line but a raw word gives legal words only, with `cmd_data` 0 but for LD, which gives its value; a raw word is
given as written, any of the 65536, with `cmd_data` its value or 0. The cutting of a line into operands is log entry 12's. -/
def Obligations.AssemblerEmitsLegalWords : Prop :=
  (∀ (m : Mnemonic) (ops : List Operand),
    (∃ cs, assemble m ops = some cs) ↔ ∃ form ∈ m.forms, List.Forall₂ Slot.takes form ops) ∧
  (∀ (m : Mnemonic) (ops : List Operand), (∀ form ∈ m.forms, ops.length ≠ form.length) → assemble m ops = none) ∧
  (∀ (m : Mnemonic) (ops : List Operand),
    (∃ n, 8 ≤ n ∧ .reg n ∈ ops) ∨ (∃ z : Int, (z < 0 ∨ (if m = .word then 65536 else 8) ≤ z) ∧ .int z ∈ ops) ∨
      (∃ e : Expr, (e.value < 0 ∨ 2 ^ 256 ≤ e.value) ∧ .value e ∈ ops) →
    assemble m ops = none) ∧
  (∀ (m : Mnemonic) (ops : List Operand) (cs : List Command), m ≠ .word → assemble m ops = some cs →
    ∀ c ∈ cs, (∃ i, decode c.word = .ok i) ∧ (m ≠ .ld → c.data = 0)) ∧
  (∀ (d : Reg) (e : Expr), 0 ≤ e.value → e.value < 2 ^ 256 →
    ∃ v : Word, (v.toNat : Int) = e.value ∧ assemble .ld [.reg d, .value e] = some [{ word := encode (.ld d), data := v }]) ∧
  (∀ (w : CmdWord) (e : Expr), assemble .word [.int w.toNat] = some [{ word := w, data := 0 }] ∧
    (0 ≤ e.value → e.value < 2 ^ 256 →
      ∃ v : Word, (v.toNat : Int) = e.value ∧ assemble .word [.int w.toNat, .value e] = some [{ word := w, data := v }]))

/-- R9, R10, R214: the decode client's answer: it fails exactly when x is out of range or no y satisfies the curve equation, and a y it
gives satisfies the equation and has the wanted parity unless it is 0. The client as one formula over the engine's operations is the
model's (log entry 14). -/
def Obligations.DecodeClientIsRight : Prop :=
  ∀ (odd : Bool) (x : Word),
    ((∃ y, decodeY odd x = .ok y) ↔ x.toNat < P ∧ ∃ b : Nat, b < P ∧ b * b % P = (x.toNat ^ 3 + 7) % P) ∧
      ∀ y, decodeY odd x = .ok y →
        y.toNat < P ∧ y.toNat * y.toNat % P = (x.toNat ^ 3 + 7) % P ∧ (y ≠ 0 → oddFlag y = odd)

/-- R8: the source's formula for the sum's y equals the textbook chord-and-tangent law `λ(Px − x₃) − Py`. -/
def Obligations.PointFormulaIsTheTextbookLaw : Prop :=
  ∀ l px py x3 : Word, sumY l px py x3 = subP (mulP l (subP px x3)) py

/-- R90, as text: the line of every command but LD assembles to that command's word with `cmd_data` 0, and LD's values may be written in
decimal, in hex, as a name or as an expression. -/
def Obligations.CommandTextAssembles : Prop :=
  (∀ (i : Instr) (v : List Char), i.opcode ≠ .ld → assembleLine (lineText v i) = some [plain i]) ∧
  ∀ rd : Reg,
    let line (v : List Char) := assembleLine (lineText v (.ld rd))
    let loads (n : Nat) : Option (List Command) := some [{ word := encode (.ld rd), data := BitVec.ofNat 256 n }]
    line ['1', '0'] = loads 10 ∧ line ['0', 'x', '1', 'F', 'f'] = loads 511 ∧ line ['P', '-', '2'] = loads (P - 2) ∧
      line ['2', '^', '2', '5', '6', '-', '1'] = loads (2 ^ 256 - 1) ∧ line ['R', '2'] = loads R2 ∧ line ['2', '^', '2', '5', '6'] = none
end

