-- ==== Sys2Proof/Laws/Assembler.lean ====
section
/-! SUPPORT. Each operand place of a line takes exactly the operands that its reading accepts (spec 30_encoding.md R90). -/

namespace Sys2Proof.Machine

theorem exists_asReg_iff (o : Operand) : (∃ r, o.asReg = some r) ↔ Slot.reg.takes o := by
  cases o <;> simp [Operand.asReg, Slot.takes]

theorem exists_asImm_iff (o : Operand) : (∃ i, o.asImm = some i) ↔ Slot.imm.takes o := by
  cases o <;> simp [Operand.asImm, Slot.takes]

theorem exists_asWord_iff (o : Operand) : (∃ w, o.asWord = some w) ↔ Slot.word.takes o := by
  cases o <;> simp [Operand.asWord, Slot.takes]

theorem exists_asValue_iff (o : Operand) : (∃ v, o.asValue = some v) ↔ Slot.value.takes o := by
  cases o <;> simp [Operand.asValue, Slot.takes]

end Sys2Proof.Machine
end

