-- ==== Sys2Proof/Laws/Field.lean ====
section
/-! SUPPORT. What the field operations compute, as natural numbers, and that their results are in `[0, P)` (00_scope.md R14). -/

namespace Sys2Proof.Machine

theorem P_pos : 0 < P := by decide

theorem one_lt_P : 1 < P := by decide

theorem P_lt : P < 2 ^ 256 := by decide

/-- `2^256 < 2P`, so a 256-bit value needs at most one subtraction (40_transfer.md R101). -/
theorem two_pow_lt_two_P : 2 ^ 256 < 2 * P := by decide

theorem toNat_ofNat_of_lt_P {n : Nat} (h : n < P) : (BitVec.ofNat 256 n).toNat = n := by
  have := P_lt
  rw [BitVec.toNat_ofNat, Nat.mod_eq_of_lt (by omega)]

theorem emod_P_toNat_lt (z : Int) : (z % (P : Int)).toNat < P := by
  have h := P_pos
  have := Int.emod_lt_of_pos z (show (0 : Int) < P by omega)
  have := Int.emod_nonneg z (show (P : Int) ≠ 0 by omega)
  omega

theorem modP_toNat (z : Int) : (modP z).toNat = (z % (P : Int)).toNat :=
  toNat_ofNat_of_lt_P (emod_P_toNat_lt z)

theorem modP_lt (z : Int) : (modP z).toNat < P := by
  rw [modP_toNat]
  exact emod_P_toNat_lt z

theorem modP_natCast (n : Nat) : modP n = BitVec.ofNat 256 (n % P) := by
  rw [modP, ← Int.natCast_emod, Int.toNat_natCast]

/-- A word below P is its own reduction. -/
theorem modP_toNat_self {a : Word} (h : a.toNat < P) : modP a.toNat = a := by
  rw [modP_natCast, Nat.mod_eq_of_lt h, BitVec.ofNat_toNat, BitVec.setWidth_eq]

theorem addP_toNat (a b : Word) : (addP a b).toNat = (a.toNat + b.toNat) % P := by
  rw [addP, ← Nat.cast_add, modP_natCast, toNat_ofNat_of_lt_P (Nat.mod_lt _ P_pos)]

theorem mulP_toNat (a b : Word) : (mulP a b).toNat = a.toNat * b.toNat % P := by
  rw [mulP, ← Nat.cast_mul, modP_natCast, toNat_ofNat_of_lt_P (Nat.mod_lt _ P_pos)]

theorem montP_toNat (a b : Word) : (montP a b).toNat = a.toNat * b.toNat * RINV % P := by
  rw [montP, ← Nat.cast_mul, ← Nat.cast_mul, modP_natCast, toNat_ofNat_of_lt_P (Nat.mod_lt _ P_pos)]

theorem subP_toNat (a b : Word) : (subP a b).toNat = (((a.toNat : Int) - b.toNat) % (P : Int)).toNat :=
  modP_toNat _

theorem negP_toNat (a : Word) : (negP a).toNat = (((P : Int) - a.toNat) % (P : Int)).toNat :=
  modP_toNat _

/-- The square-and-multiply computes the power, over as many bits as the exponent has. -/
theorem powMod_eq (a : Nat) : ∀ (n e : Nat), e < 2 ^ n → powMod a e n = a ^ e % P := by
  intro n
  induction n with
  | zero =>
    intro e he
    obtain rfl : e = 0 := by omega
    rw [Nat.pow_zero]
    exact (Nat.mod_eq_of_lt one_lt_P).symm
  | succ n ih =>
    intro e he
    have half : a ^ e = a ^ (e / 2) * a ^ (e / 2) * a ^ (e % 2) := by
      rw [← Nat.pow_add, ← Nat.pow_add]
      congr 1
      omega
    have rec_half := ih (e / 2) (by rw [Nat.pow_succ] at he; omega)
    rw [half]
    rcases Nat.mod_two_eq_zero_or_one e with h | h <;>
      simp [powMod, h, rec_half, Nat.mul_mod]

theorem powMod_lt (a e : Nat) : ∀ n : Nat, powMod a e n < P := by
  intro n
  cases n with
  | zero => exact one_lt_P
  | succ n =>
    unfold powMod
    split <;> exact Nat.mod_lt _ P_pos

theorem powP_toNat (a : Word) {e : Nat} (he : e < 2 ^ 256) : (powP a e).toNat = a.toNat ^ e % P := by
  rw [powP, toNat_ofNat_of_lt_P (powMod_lt _ _ _), powMod_eq _ _ _ he]

theorem powP_lt (a : Word) (e : Nat) : (powP a e).toNat < P := by
  rw [powP, toNat_ofNat_of_lt_P (powMod_lt _ _ _)]
  exact powMod_lt _ _ _

end Sys2Proof.Machine
end

