-- ==== Sys2Proof/Laws/State.lean ====
section
/-! SUPPORT. The small lemmas of the state: one per field per update, true by `rfl`, so that no proof unfolds a record update; and a
register read after a write. -/

namespace Sys2Proof.Machine

variable (s : State) (st : Status) (fl : FlagBits) (d v : Word) (rd : Reg) (gep qr : Bool) (c : Command) (p : Pins)

/-! ### Registers -/

@[simp] theorem reg_writeReg_same : (s.writeReg rd v).reg rd = v := by
  simp [State.reg, State.writeReg]

theorem reg_writeReg (r : Reg) : (s.writeReg rd v).reg r = if rd = r then v else s.reg r := by
  simp [State.reg, State.writeReg, Vector.getElem_set, Fin.ext_iff]

theorem reg_writeReg_of_ne {r : Reg} (h : rd ≠ r) : (s.writeReg rd v).reg r = s.reg r := by
  simp [reg_writeReg, h]

@[simp] theorem phase_writeReg : (s.writeReg rd v).phase = s.phase := rfl
@[simp] theorem rsp_writeReg : (s.writeReg rd v).rsp = s.rsp := rfl
@[simp] theorem cmdl_writeReg : (s.writeReg rd v).cmdl = s.cmdl := rfl
@[simp] theorem busyLeft_writeReg : (s.writeReg rd v).busyLeft = s.busyLeft := rfl
@[simp] theorem pins_writeReg : (s.writeReg rd v).pins = s.pins := rfl
@[simp] theorem latencies_writeReg : (s.writeReg rd v).latencies = s.latencies := rfl
@[simp] theorem edges_writeReg : (s.writeReg rd v).edges = s.edges := rfl

/-! ### The response -/

@[simp] theorem regs_respond : (s.respond st fl d).regs = s.regs := rfl
@[simp] theorem reg_respond (r : Reg) : (s.respond st fl d).reg r = s.reg r := rfl
@[simp] theorem phase_respond : (s.respond st fl d).phase = .resp := rfl
@[simp] theorem rsp_respond : (s.respond st fl d).rsp = { status := st, flags := fl, data := d } := rfl
@[simp] theorem cmdl_respond : (s.respond st fl d).cmdl = s.cmdl := rfl
@[simp] theorem busyLeft_respond : (s.respond st fl d).busyLeft = s.busyLeft := rfl
@[simp] theorem pins_respond : (s.respond st fl d).pins = s.pins := rfl
@[simp] theorem latencies_respond : (s.respond st fl d).latencies = s.latencies := rfl
@[simp] theorem edges_respond : (s.respond st fl d).edges = s.edges := rfl

/-! ### Retiring a value -/

theorem reg_retire (r : Reg) : (s.retire rd gep qr v).reg r = if rd = r then v else s.reg r :=
  reg_writeReg s v rd r

@[simp] theorem phase_retire : (s.retire rd gep qr v).phase = .resp := rfl
@[simp] theorem rsp_retire :
    (s.retire rd gep qr v).rsp = { status := statusOk, flags := flagsOf gep qr v, data := v } := rfl
@[simp] theorem cmdl_retire : (s.retire rd gep qr v).cmdl = s.cmdl := rfl
@[simp] theorem busyLeft_retire : (s.retire rd gep qr v).busyLeft = s.busyLeft := rfl
@[simp] theorem pins_retire : (s.retire rd gep qr v).pins = s.pins := rfl
@[simp] theorem latencies_retire : (s.retire rd gep qr v).latencies = s.latencies := rfl
@[simp] theorem edges_retire : (s.retire rd gep qr v).edges = s.edges := rfl

/-! ### ILLEGAL -/

@[simp] theorem reg_raiseIllegal (r : Reg) : s.raiseIllegal.reg r = s.reg r := rfl
@[simp] theorem phase_raiseIllegal : s.raiseIllegal.phase = .resp := rfl
@[simp] theorem rsp_raiseIllegal : s.raiseIllegal.rsp = { status := statusIllegal, flags := 0, data := 0 } := rfl
@[simp] theorem cmdl_raiseIllegal : s.raiseIllegal.cmdl = s.cmdl := rfl
@[simp] theorem busyLeft_raiseIllegal : s.raiseIllegal.busyLeft = s.busyLeft := rfl
@[simp] theorem pins_raiseIllegal : s.raiseIllegal.pins = s.pins := rfl
@[simp] theorem latencies_raiseIllegal : s.raiseIllegal.latencies = s.latencies := rfl
@[simp] theorem edges_raiseIllegal : s.raiseIllegal.edges = s.edges := rfl

/-! ### One more edge of the outside world -/

@[simp] theorem regs_advance : s.advance.regs = s.regs := rfl
@[simp] theorem reg_advance (r : Reg) : s.advance.reg r = s.reg r := rfl
@[simp] theorem phase_advance : s.advance.phase = s.phase := rfl
@[simp] theorem rsp_advance : s.advance.rsp = s.rsp := rfl
@[simp] theorem cmdl_advance : s.advance.cmdl = s.cmdl := rfl
@[simp] theorem busyLeft_advance : s.advance.busyLeft = s.busyLeft := rfl
@[simp] theorem pins_advance : s.advance.pins = s.pins.tail := rfl
@[simp] theorem latencies_advance : s.advance.latencies = s.latencies := rfl
@[simp] theorem edges_advance : s.advance.edges = s.edges + 1 := rfl

/-! ### Acceptance -/

@[simp] theorem regs_accept : (s.accept c).regs = s.regs := rfl
@[simp] theorem reg_accept (r : Reg) : (s.accept c).reg r = s.reg r := rfl
@[simp] theorem phase_accept : (s.accept c).phase = .busy := rfl
@[simp] theorem rsp_accept : (s.accept c).rsp = s.rsp := rfl
@[simp] theorem cmdl_accept : (s.accept c).cmdl = c := rfl
@[simp] theorem busyLeft_accept : (s.accept c).busyLeft = s.nextLatency c := rfl
@[simp] theorem pins_accept : (s.accept c).pins = s.pins := rfl
@[simp] theorem latencies_accept : (s.accept c).latencies = s.latencies.tail := rfl
@[simp] theorem edges_accept : (s.accept c).edges = s.edges := rfl

/-! ### Reset -/

@[simp] theorem reg_reset (r : Reg) : State.reset.reg r = 0 := by
  simp [State.reset, State.reg]

@[simp] theorem reg_resetEdge (r : Reg) : s.resetEdge.reg r = 0 := reg_reset r
@[simp] theorem phase_resetEdge : s.resetEdge.phase = .idle := rfl
@[simp] theorem rsp_resetEdge : s.resetEdge.rsp = { status := 0, flags := 0, data := 0 } := rfl
@[simp] theorem cmdl_resetEdge : s.resetEdge.cmdl = { word := 0, data := 0 } := rfl
@[simp] theorem busyLeft_resetEdge : s.resetEdge.busyLeft = 0 := rfl
@[simp] theorem pins_resetEdge : s.resetEdge.pins = s.pins := rfl
@[simp] theorem latencies_resetEdge : s.resetEdge.latencies = s.latencies := rfl
@[simp] theorem edges_resetEdge : s.resetEdge.edges = s.edges := rfl

/-! ### The coming pins -/

theorem nextPins_eq_pinsAt : s.nextPins = s.pinsAt 0 := by
  unfold State.nextPins State.pinsAt
  cases s.pins <;> rfl

theorem pinsAt_advance (k : Nat) : s.advance.pinsAt k = s.pinsAt (k + 1) := by
  unfold State.pinsAt
  cases h : s.pins <;> simp [h, Nat.add_comm, Nat.add_left_comm]

end Sys2Proof.Machine
end

