-- ==== Sys2Proof/Laws/Control.lean ====
section
/-! SUPPORT. What an execution and an edge can do, said once: proofs about `exec` and `step` cite these instead of unfolding them. -/

namespace Sys2Proof.Machine

/-- The state in which a command's execution ends. -/
def effect (i : Instr) (s : State) : State :=
  match exec i s with
  | .next t => t
  | .fault _ | .refused _ => s

/-- Every command completes. -/
theorem exec_eq_effect (i : Instr) (s : State) : exec i s = .next (effect i s) := by
  cases i <;> rfl

/-- A completion edge always answers a next state: the command's effect, or ILLEGAL. -/
theorem complete_eq (s : State) :
    complete s =
      .next (match decode s.cmdl.word with
        | .ok i => effect i s
        | .error _ => s.raiseIllegal) := by
  unfold complete
  cases decode s.cmdl.word <;> simp [exec_eq_effect]

/-- What one edge can do when it goes on. -/
theorem edge_next {p : Pins} {s t : State} (h : edge p s = .next t) :
    (p.rst = true ∧ t = s.resetEdge) ∨
      (p.rst = false ∧
        ((s.phase = .idle ∧ t = s.idleEdge p) ∨
          (s.phase = .busy ∧ s.busyLeft ≤ 1 ∧ complete { s with busyLeft := 0 } = .next t) ∨
          (s.phase = .busy ∧ 1 < s.busyLeft ∧ t = { s with busyLeft := s.busyLeft - 1 }) ∨
          (s.phase = .resp ∧ t = s.respEdge p))) := by
  unfold edge at h
  cases hr : p.rst
  · refine .inr ⟨rfl, ?_⟩
    cases hp : s.phase <;> simp only [hr, hp, Bool.false_eq_true, if_false] at h
    · exact .inl ⟨rfl, by simpa using h.symm⟩
    · unfold busyEdge at h
      split at h
      · exact .inr (.inl ⟨rfl, ‹_›, h⟩)
      · exact .inr (.inr (.inl ⟨rfl, by omega, by simpa [hp] using h.symm⟩))
    · exact .inr (.inr (.inr ⟨rfl, by simpa using h.symm⟩))
    · cases h
  · exact .inl ⟨rfl, by simpa [hr] using h.symm⟩

/-! ### Runs of edges -/

theorem run_succ_of_step {s t : State} (h : step s = .next t) (n : Nat) : run (n + 1) s = run n t := by
  simp only [run, h]

theorem run_add {m : Nat} {s t : State} (h : run m s = .next t) (n : Nat) : run (m + n) s = run n t := by
  induction m generalizing s with
  | zero =>
    cases h
    rw [Nat.zero_add]
  | succ m ih =>
    rw [show m + 1 + n = (m + n) + 1 by omega]
    cases hs : step s with
    | next u =>
      rw [run_succ_of_step hs] at h ⊢
      exact ih h
    | fault r => simp [run, hs] at h
    | refused r => simp [run, hs] at h

theorem core_run_succ_of_step {s t : State} (h : step s = .next t) (n : Nat) :
    Sys2Proof.core.run (n + 1) s = Sys2Proof.core.run n t := by
  have hc : Sys2Proof.core.step s = .next t := h
  simp only [Host.Core.run, hc]

/-- The model's own run is the host's run of the machine. -/
theorem run_eq_core_run (n : Nat) (s : State) : run n s = Sys2Proof.core.run n s := by
  induction n generalizing s with
  | zero => rfl
  | succ n ih =>
    cases hs : step s with
    | next t => rw [run_succ_of_step hs, ih, core_run_succ_of_step hs]
    | fault r =>
      have hc : Sys2Proof.core.step s = .fault r := hs
      simp only [run, hs, Host.Core.run, hc]
      rfl
    | refused r =>
      have hc : Sys2Proof.core.step s = .refused r := hs
      simp only [run, hs, Host.Core.run, hc]
      rfl

end Sys2Proof.Machine
end

