-- ==== Sys2Proof/Laws/Decode.lean ====
section
/-! SUPPORT. The fields of a word as numbers, and decoding said once in numbers: proofs about `decode` cite these. -/

namespace Sys2Proof

theorem CmdWord.op_toNat (w : CmdWord) : (CmdWord.op w).toNat = w.toNat / 4096 := by
  have := w.isLt
  simp only [CmdWord.op, BitVec.extractLsb'_toNat, Nat.shiftRight_eq_div_pow]
  omega

theorem CmdWord.rd_val (w : CmdWord) : (CmdWord.rd w).val = w.toNat / 512 % 8 := by
  simp [CmdWord.rd, Nat.shiftRight_eq_div_pow]

theorem CmdWord.rs1_val (w : CmdWord) : (CmdWord.rs1 w).val = w.toNat / 64 % 8 := by
  simp [CmdWord.rs1, Nat.shiftRight_eq_div_pow]

theorem CmdWord.rs2_val (w : CmdWord) : (CmdWord.rs2 w).val = w.toNat / 8 % 8 := by
  simp [CmdWord.rs2, Nat.shiftRight_eq_div_pow]

theorem CmdWord.imm_toNat (w : CmdWord) : (CmdWord.imm w).toNat = w.toNat % 8 := by
  simp [CmdWord.imm]

theorem Opcode.ofNumber_number (o : Opcode) : Opcode.ofNumber o.number = some o := by
  cases o <;> rfl

theorem Opcode.number_of_ofNumber {n : Nat} {o : Opcode} (h : Opcode.ofNumber n = some o) : o.number = n := by
  unfold Opcode.ofNumber at h
  split at h <;> cases h <;> rfl

theorem Opcode.ofNumber_eq_none {n : Nat} : Opcode.ofNumber n = none ↔ 12 ≤ n := by
  constructor
  · intro h
    by_contra hn
    have : n < 12 := by omega
    interval_cases n <;> cases h
  · intro h
    unfold Opcode.ofNumber
    split <;> first | omega | rfl

@[simp] theorem Opcode.opcode_command (o : Opcode) (w : CmdWord) : (o.command w).opcode = o := by
  cases o <;> rfl

/-- A word with an assigned opcode decodes to that row's command, or is ILLEGAL for a one in a must-be-zero bit. -/
theorem decode_of_opcode {w : CmdWord} {o : Opcode} (h : Opcode.ofNumber (w.toNat / 4096) = some o) :
    decode w = if w &&& o.mask = o.pattern then .ok (o.command w) else .error .nonzeroField := by
  rw [decode, CmdWord.op_toNat, h]

/-- A word with a reserved opcode is ILLEGAL for that. -/
theorem decode_of_reserved {w : CmdWord} (h : 12 ≤ w.toNat / 4096) : decode w = .error .reservedOpcode := by
  rw [decode, CmdWord.op_toNat, Opcode.ofNumber_eq_none.2 h]

/-- What a legal word is: it selects the row of its command's opcode, and the command is the row's with the word's operands. -/
theorem decode_eq_ok {w : CmdWord} {i : Instr} (h : decode w = .ok i) :
    Opcode.ofNumber (w.toNat / 4096) = some i.opcode ∧ w &&& i.opcode.mask = i.opcode.pattern ∧ i = i.opcode.command w := by
  cases ho : Opcode.ofNumber (w.toNat / 4096) with
  | none => rw [decode_of_reserved (Opcode.ofNumber_eq_none.1 ho)] at h; cases h
  | some o =>
    rw [decode_of_opcode ho] at h
    split at h
    · cases h
      exact ⟨by simp, by simpa, by simp⟩
    · cases h

end Sys2Proof
end

