-- ==== Sys2Proof/Laws/Flags.lean ====
section
/-! SUPPORT. The flags of a response as a number and one by one (spec 10_state.md R34, R35). -/

namespace Sys2Proof.Machine

theorem oddFlag_eq (v : Word) : oddFlag v = decide (v.toNat % 2 = 1) := by
  rw [oddFlag, BitVec.getLsbD, Nat.testBit_zero]

theorem zeroFlag_eq (v : Word) : zeroFlag v = decide (v.toNat = 0) := by
  rw [zeroFlag, Bool.eq_iff_iff, beq_iff_eq, decide_eq_true_iff, ← BitVec.toNat_inj]
  rfl

theorem ofBool_append_four (a b c d : Bool) :
    BitVec.ofBool a ++ BitVec.ofBool b ++ BitVec.ofBool c ++ BitVec.ofBool d =
      BitVec.ofNat 4 (a.toNat * 8 + b.toNat * 4 + c.toNat * 2 + d.toNat) := by
  cases a <;> cases b <;> cases c <;> cases d <;> rfl

/-- The flags as the number `8·GEP + 4·QR + 2·ODD + Z`. -/
theorem flagsOf_eq_ofNat (gep qr : Bool) (v : Word) :
    flagsOf gep qr v =
      BitVec.ofNat 4 (gep.toNat * 8 + qr.toNat * 4 + v.toNat % 2 * 2 + (decide (v.toNat = 0)).toNat) := by
  have odd : (oddFlag v).toNat = v.toNat % 2 := by
    rw [oddFlag_eq]
    rcases Nat.mod_two_eq_zero_or_one v.toNat with h | h <;> simp [h]
  rw [flagsOf, ofBool_append_four, odd, zeroFlag_eq]

/-! ### Each flag of a response built by `flagsOf` -/

theorem getLsbD_append_four : ∀ a b c d : Bool,
    let x : FlagBits := BitVec.ofBool a ++ BitVec.ofBool b ++ BitVec.ofBool c ++ BitVec.ofBool d
    x.getLsbD 3 = a ∧ x.getLsbD 2 = b ∧ x.getLsbD 1 = c ∧ x.getLsbD 0 = d := by
  decide

variable (st : Status) (gep qr : Bool) (v d : Word)

theorem gep_flagsOf : ({ status := st, flags := flagsOf gep qr v, data := d } : Response).gep = gep :=
  (getLsbD_append_four gep qr (oddFlag v) (zeroFlag v)).1

theorem qr_flagsOf : ({ status := st, flags := flagsOf gep qr v, data := d } : Response).qr = qr :=
  (getLsbD_append_four gep qr (oddFlag v) (zeroFlag v)).2.1

theorem odd_flagsOf : ({ status := st, flags := flagsOf gep qr v, data := d } : Response).odd = oddFlag v :=
  (getLsbD_append_four gep qr (oddFlag v) (zeroFlag v)).2.2.1

theorem z_flagsOf : ({ status := st, flags := flagsOf gep qr v, data := d } : Response).z = zeroFlag v :=
  (getLsbD_append_four gep qr (oddFlag v) (zeroFlag v)).2.2.2

end Sys2Proof.Machine
end

