-- ==== Sys2Proof/Laws/Ops.lean ====
section
/-! SUPPORT. The meanings in the terms of the shared operations, where their own text needs an argument first: LD's one conditional
subtraction is the reduction mod P, and LDI's immediate is its number. -/

namespace Sys2Proof.Machine

theorem immediate_toNat (imm : BitVec 3) : (immediate imm).toNat = imm.toNat := by
  have := imm.isLt
  rw [immediate, BitVec.zeroExtend, BitVec.toNat_setWidth, Nat.mod_eq_of_lt (by omega)]

theorem immediate_lt (imm : BitVec 3) : (immediate imm).toNat < P := by
  rw [immediate_toNat]
  exact Nat.lt_trans imm.isLt (by decide)

/-- One subtraction at most reduces a 256-bit value mod P (40_transfer.md R101). -/
theorem condSub_word_toNat (d : Word) :
    (if P ≤ d.toNat then d - BitVec.ofNat 256 P else d).toNat = d.toNat % P := by
  have hd := d.isLt
  have h2 := two_pow_lt_two_P
  have hp : (BitVec.ofNat 256 P).toNat = P := by rw [BitVec.toNat_ofNat, Nat.mod_eq_of_lt P_lt]
  split
  · rename_i h
    rw [BitVec.toNat_sub_of_le (by rw [BitVec.le_def, hp]; exact h), hp, Nat.mod_eq_sub_mod h, Nat.mod_eq_of_lt (by omega)]
  · rw [Nat.mod_eq_of_lt (by omega)]

/-- LD retires its data reduced mod P. -/
theorem execLd_eq (rd : Reg) (s : State) :
    execLd rd s =
      .next (s.retire rd (decide (P ≤ s.cmdl.data.toNat)) false (BitVec.ofNat 256 (s.cmdl.data.toNat % P))) := by
  have h : (if P ≤ s.cmdl.data.toNat then s.cmdl.data - BitVec.ofNat 256 P else s.cmdl.data) =
      BitVec.ofNat 256 (s.cmdl.data.toNat % P) := by
    rw [← BitVec.toNat_inj, condSub_word_toNat, toNat_ofNat_of_lt_P (Nat.mod_lt _ P_pos)]
  rw [← h]
  rfl

end Sys2Proof.Machine
end

