-- ==== Sys2Proof/Laws/PerInstr.lean ====
section
/-! SUPPORT. Statements about every command as syntax, one lemma per constructor. -/

/-! ### WellFormed: the fields of every command are well formed, so no command is outside the encoding (30_encoding.md R82, R85). -/

/-- A command is well formed. -/
def Sys2Proof.Laws.WellFormed.Statement (i : Sys2Proof.Instr) : Prop := i.wf = true

namespace Sys2Proof.Laws.WellFormed

theorem nop : Statement .nop := rfl
theorem ld (rd : Reg) : Statement (.ld rd) := by
  simp [Statement, Instr.wf, Fields.wf, Instr.fields, Instr.opcode, Opcode.number, Opcode.ofNumber, Opcode.format, fieldOk,
    Format.hasRd]
theorem st (rs1 : Reg) : Statement (.st rs1) := by
  simp [Statement, Instr.wf, Fields.wf, Instr.fields, Instr.opcode, Opcode.number, Opcode.ofNumber, Opcode.format, fieldOk,
    Format.hasRs1]
theorem ldi (rd : Reg) (imm : BitVec 3) : Statement (.ldi rd imm) := by
  have := imm.isLt
  simp [Statement, Instr.wf, Fields.wf, Instr.fields, Instr.opcode, Opcode.number, Opcode.ofNumber, Opcode.format, fieldOk,
    Format.hasRd, Format.hasImm, this]

/-- The commands of format R3. -/
theorem ofR3 (i : Instr) (o : Opcode) (rd rs1 rs2 : Reg) (hf : i.fields = ⟨o.number, rd, rs1, rs2, 0⟩)
    (ho : Opcode.ofNumber o.number = some o) (h3 : o.format = .r3) : Statement i := by
  simp [Statement, Instr.wf, Fields.wf, hf, ho, h3, fieldOk, Format.hasRd, Format.hasRs1, Format.hasRs2]

/-- The commands of format R2. -/
theorem ofR2 (i : Instr) (o : Opcode) (rd rs1 : Reg) (hf : i.fields = ⟨o.number, rd, rs1, 0, 0⟩)
    (ho : Opcode.ofNumber o.number = some o) (h2 : o.format = .r2) : Statement i := by
  simp [Statement, Instr.wf, Fields.wf, hf, ho, h2, fieldOk, Format.hasRd, Format.hasRs1]

theorem add (rd rs1 rs2 : Reg) : Statement (.add rd rs1 rs2) := ofR3 _ .add rd rs1 rs2 rfl rfl rfl
theorem sub (rd rs1 rs2 : Reg) : Statement (.sub rd rs1 rs2) := ofR3 _ .sub rd rs1 rs2 rfl rfl rfl
theorem neg (rd rs1 : Reg) : Statement (.neg rd rs1) := ofR2 _ .neg rd rs1 rfl rfl rfl
theorem mul (rd rs1 rs2 : Reg) : Statement (.mul rd rs1 rs2) := ofR3 _ .mul rd rs1 rs2 rfl rfl rfl
theorem mont (rd rs1 rs2 : Reg) : Statement (.mont rd rs1 rs2) := ofR3 _ .mont rd rs1 rs2 rfl rfl rfl
theorem exp (rd rs1 rs2 : Reg) : Statement (.exp rd rs1 rs2) := ofR3 _ .exp rd rs1 rs2 rfl rfl rfl
theorem inv (rd rs1 : Reg) : Statement (.inv rd rs1) := ofR2 _ .inv rd rs1 rfl rfl rfl
theorem sqrt (rd rs1 : Reg) : Statement (.sqrt rd rs1) := ofR2 _ .sqrt rd rs1 rfl rfl rfl

end Sys2Proof.Laws.WellFormed

/-! ### TableRow: the word of every command selects that command's row of the opcode map (30_encoding.md R83). -/

/-- The encoded word selects the row of the command's opcode. -/
def Sys2Proof.Laws.TableRow.Statement (i : Sys2Proof.Instr) : Prop :=
  Sys2Proof.encode i &&& i.opcode.mask = i.opcode.pattern

namespace Sys2Proof.Laws.TableRow

theorem nop : Statement .nop := by unfold Statement; decide
theorem ld (rd : Reg) : Statement (.ld rd) := by revert rd; unfold Statement; decide
theorem st (rs1 : Reg) : Statement (.st rs1) := by revert rs1; unfold Statement; decide
theorem ldi (rd : Reg) (imm : BitVec 3) : Statement (.ldi rd imm) := by revert rd imm; unfold Statement; decide
theorem add (rd rs1 rs2 : Reg) : Statement (.add rd rs1 rs2) := by revert rd rs1 rs2; unfold Statement; decide +kernel
theorem sub (rd rs1 rs2 : Reg) : Statement (.sub rd rs1 rs2) := by revert rd rs1 rs2; unfold Statement; decide +kernel
theorem neg (rd rs1 : Reg) : Statement (.neg rd rs1) := by revert rd rs1; unfold Statement; decide
theorem mul (rd rs1 rs2 : Reg) : Statement (.mul rd rs1 rs2) := by revert rd rs1 rs2; unfold Statement; decide +kernel
theorem mont (rd rs1 rs2 : Reg) : Statement (.mont rd rs1 rs2) := by revert rd rs1 rs2; unfold Statement; decide +kernel
theorem exp (rd rs1 rs2 : Reg) : Statement (.exp rd rs1 rs2) := by revert rd rs1 rs2; unfold Statement; decide +kernel
theorem inv (rd rs1 : Reg) : Statement (.inv rd rs1) := by revert rd rs1; unfold Statement; decide
theorem sqrt (rd rs1 : Reg) : Statement (.sqrt rd rs1) := by revert rd rs1; unfold Statement; decide

end Sys2Proof.Laws.TableRow
end

