-- ==== Sys2Proof/Laws/PrimeCertificate.lean ====
section
/-! SUPPORT. Primality by Lucas's test with the factors of `p − 1` given, and the chain of primes below the field prime: what a proof that P
(00_scope.md R4) is prime needs. The factors were found outside Lean; the kernel checks them here. -/

-- One theorem at a time, as in Tests/Slice0.lean: the check's memory limit leaves room for few threads.
set_option Elab.async false

namespace Sys2Proof.Machine

/-- `a^e mod m` by squaring, over the low `n` bits of `e`. -/
def powModulo (m a e : Nat) : Nat → Nat
  | 0 => 1 % m
  | n + 1 =>
    let r := powModulo m a (e / 2) n
    if e % 2 = 1 then r * r % m * a % m else r * r % m

theorem powModulo_eq (m a : Nat) : ∀ (n e : Nat), e < 2 ^ n → powModulo m a e n = a ^ e % m := by
  intro n
  induction n with
  | zero =>
    intro e he
    obtain rfl : e = 0 := by omega
    rfl
  | succ n ih =>
    intro e he
    have half : a ^ e = a ^ (e / 2) * a ^ (e / 2) * a ^ (e % 2) := by
      rw [← Nat.pow_add, ← Nat.pow_add]
      congr 1
      omega
    have rec_half := ih (e / 2) (by rw [Nat.pow_succ] at he; omega)
    rw [half]
    rcases Nat.mod_two_eq_zero_or_one e with h | h <;> simp [powModulo, h, rec_half, Nat.mul_mod]

/-- Lucas's test: `p − 1` is the product of the listed primes, and `a` has order `p − 1`. -/
theorem prime_of_factors (p a : Nat) (fs : List Nat) (hprod : fs.prod = p - 1) (hprime : ∀ q ∈ fs, q.Prime)
    (hlt : p < 2 ^ 256) (hgt : 1 < p) (hone : powModulo p a (p - 1) 256 = 1)
    (hne : ∀ q ∈ fs, powModulo p a ((p - 1) / q) 256 ≠ 1) : p.Prime := by
  have cast (n : Nat) : (a : ZMod p) ^ n = 1 ↔ a ^ n % p = 1 := by
    have h := ZMod.natCast_eq_natCast_iff' (a ^ n) 1 p
    rw [Nat.mod_eq_of_lt hgt] at h
    exact_mod_cast h
  have order : (a : ZMod p) ^ (p - 1) = 1 := by
    rw [cast, ← powModulo_eq p a 256 (p - 1) (by omega)]
    exact hone
  refine lucas_primality p a order fun q hq hd => ?_
  obtain ⟨x, hx, hqx⟩ := (Nat.Prime.prime hq).dvd_prod_iff.1 (hprod ▸ hd)
  obtain rfl := (Nat.prime_dvd_prime_iff_eq hq (hprime x hx)).1 hqx
  have small : (p - 1) / q < 2 ^ 256 := by
    have := Nat.div_le_self (p - 1) q
    omega
  rw [ne_eq, cast, ← powModulo_eq p a 256 _ small]
  exact hne _ hx

theorem prime_173378833005251801 : Nat.Prime 173378833005251801 := by
  refine prime_of_factors _ 6 [2, 2, 2, 5, 5, 2621, 24809, 13331831] (by norm_num) ?_ (by norm_num) (by norm_num)
    (by decide +kernel) (by decide +kernel)
  simp only [List.forall_mem_cons, List.not_mem_nil, false_implies, implies_true, and_true]
  norm_num

theorem prime_22149492674086928081353 : Nat.Prime 22149492674086928081353 := by
  refine prime_of_factors _ 5 [2, 2, 2, 3, 5323, 173378833005251801] (by norm_num) ?_ (by norm_num) (by norm_num)
    (by decide +kernel) (by decide +kernel)
  simp only [List.forall_mem_cons, List.not_mem_nil, false_implies, implies_true, and_true]
  refine ⟨?_, ?_, ?_, ?_, ?_, prime_173378833005251801⟩ <;> norm_num

theorem prime_132896956044521568488119 : Nat.Prime 132896956044521568488119 := by
  refine prime_of_factors _ 6 [2, 3, 22149492674086928081353] (by norm_num) ?_ (by norm_num) (by norm_num)
    (by decide +kernel) (by decide +kernel)
  simp only [List.forall_mem_cons, List.not_mem_nil, false_implies, implies_true, and_true]
  refine ⟨?_, ?_, prime_22149492674086928081353⟩ <;> norm_num

theorem prime_255515944373312847190720520512484175977 : Nat.Prime 255515944373312847190720520512484175977 := by
  refine prime_of_factors _ 3 [2, 2, 2, 7, 7, 11, 1627, 2657, 4423, 41201, 96557, 7240687, 107590001] (by norm_num) ?_ (by norm_num)
    (by norm_num) (by decide +kernel) (by decide +kernel)
  simp only [List.forall_mem_cons, List.not_mem_nil, false_implies, implies_true, and_true]
  norm_num

/-- The large prime factor of `P − 1 = 2 · 3 · 7 · 13441 · q`. -/
theorem prime_largest_factor :
    Nat.Prime 205115282021455665897114700593932402728804164701536103180137503955397371 := by
  refine prime_of_factors _ 10
    [2, 3, 5, 29, 29, 31, 7723, 132896956044521568488119, 255515944373312847190720520512484175977] (by norm_num) ?_ (by norm_num)
    (by norm_num) (by decide +kernel) (by decide +kernel)
  simp only [List.forall_mem_cons, List.not_mem_nil, false_implies, implies_true, and_true]
  refine ⟨?_, ?_, ?_, ?_, ?_, ?_, ?_, prime_132896956044521568488119,
    prime_255515944373312847190720520512484175977⟩ <;> norm_num

end Sys2Proof.Machine
end

