-- ==== Sys2Proof/Tests/Slice0.lean ====
section
/-! SUPPORT. Tests whose expected values are the spec's own (30_encoding.md R92 and the patterns of R82; 95_test_vectors.md), and for every
statement with hypotheses a witness that meets them. -/

-- One theorem at a time: many small kernel evaluations at once would need more threads than the check's memory limit allows.
set_option Elab.async false

namespace Sys2Proof.Tests

open Sys2Proof.Machine

/-! ### Well-formedness: one ill-formed term for each check of R82 -/

theorem test_wf_accepts_add : (Fields.mk 4 2 0 1 0).wf = true := by decide
theorem test_wf_refuses_reserved_opcode : (Fields.mk 12 0 0 0 0).wf = false := by decide
theorem test_wf_refuses_wide_register : (Fields.mk 4 8 0 1 0).wf = false := by decide
theorem test_wf_refuses_wide_immediate : (Fields.mk 3 2 0 0 8).wf = false := by decide
theorem test_wf_refuses_rd_in_st : (Fields.mk 2 2 0 0 0).wf = false := by decide
theorem test_wf_refuses_rs1_in_ld : (Fields.mk 1 2 1 0 0).wf = false := by decide
theorem test_wf_refuses_rs2_in_inv : (Fields.mk 10 2 0 1 0).wf = false := by decide
theorem test_wf_refuses_imm_in_add : (Fields.mk 4 2 0 1 1).wf = false := by decide

/-! ### Decoding: words written out bit by bit from the patterns of R82 and the opcodes of R83 -/

theorem test_decode_nop : decode 0b0000000000000000 = .ok .nop := by rfl
theorem test_decode_ld : decode 0b0001_010_000000000 = .ok (.ld 2) := by rfl
theorem test_decode_st : decode 0b0010_000_011_000000 = .ok (.st 3) := by rfl
theorem test_decode_ldi : decode 0b0011_010_000000_111 = .ok (.ldi 2 7) := by rfl
theorem test_decode_add : decode 0b0100_010_000_001_000 = .ok (.add 2 0 1) := by rfl
theorem test_decode_sub : decode 0b0101_100_010_111_000 = .ok (.sub 4 2 7) := by rfl
theorem test_decode_neg : decode 0b0110_100_011_000000 = .ok (.neg 4 3) := by rfl
theorem test_decode_mul : decode 0b0111_110_010_101_000 = .ok (.mul 6 2 5) := by rfl
theorem test_decode_mont : decode 0b1000_111_110_001_000 = .ok (.mont 7 6 1) := by rfl
theorem test_decode_exp : decode 0b1001_100_000_011_000 = .ok (.exp 4 0 3) := by rfl
theorem test_decode_inv : decode 0b1010_100_101_000000 = .ok (.inv 4 5) := by rfl
theorem test_decode_sqrt : decode 0b1011_011_001_000000 = .ok (.sqrt 3 1) := by rfl

/-- V-ILL-1, V-ILL-8. -/
theorem test_decode_reserved : decode 0xC000 = .error .reservedOpcode ∧ decode 0xFFFF = .error .reservedOpcode := ⟨rfl, rfl⟩

/-- V-ILL-2 to V-ILL-7: a one in every kind of must-be-zero field. -/
theorem test_decode_nonzero_fields :
    ∀ w ∈ ([0x4409, 0x0001, 0xa408, 0x1440, 0x2400, 0x340f] : List CmdWord), decode w = .error .nonzeroField := by
  simp only [List.forall_mem_cons, List.not_mem_nil, false_implies, implies_true, and_true]
  exact ⟨rfl, rfl, rfl, rfl, rfl, rfl⟩

/-! ### Commands: the vectors of 95_test_vectors.md section 2, one step from a state with F0, F1 and the data set -/

/-- Reset with F0 and F1 set, and the data that a placed LD finds. -/
def start (f0 f1 data : Nat) : State :=
  { (State.reset.writeReg 0 (BitVec.ofNat 256 f0)).writeReg 1 (BitVec.ofNat 256 f1) with
    cmdl := { word := 0, data := BitVec.ofNat 256 data } }

/-- One step with the command word in place: status, flags, data, and F2 after it. -/
def result (w : Nat) (s : State) : Option (Nat × Nat × Nat × Nat) :=
  match step (s.withFetchWord 16 w) with
  | .next t => some (t.rsp.status.toNat, t.rsp.flags.toNat, t.rsp.data.toNat, (t.reg 2).toNat)
  | .fault _ | .refused _ => none

def gx : Nat := 0x79be667ef9dcbbac55a06295ce870b07029bfcdb2dce28d959f2815b16f81798
def gy : Nat := 0x483ada7726a3c4655da4fbfc0e1108a8fd17b448a68554199c47d08ffb10d4b8

/-- V-NOP-1. -/
theorem test_nop : result 0x0000 (start 5 3 9) = some (0, 0b0000, 0, 0) := by decide +kernel
/-- V-LD-3. -/
theorem test_ld_p : result 0x1400 (start 0 0 P) = some (0, 0b1001, 0, 0) := by decide +kernel
/-- V-LD-5. -/
theorem test_ld_top : result 0x1400 (start 0 0 (2 ^ 256 - 1)) = some (0, 0b1000, 0x1000003d0, 0x1000003d0) := by decide +kernel
/-- V-ST-1: the response only. -/
theorem test_st : result 0x2000 (start gx 0 0) = some (0, 0b0000, gx, 0) := by decide +kernel
/-- V-LDI-1: not sign-extended. -/
theorem test_ldi : result 0x3407 (start 0 0 0) = some (0, 0b0010, 7, 7) := by decide +kernel
/-- V-ADD-2: the sum that wraps to 0. -/
theorem test_add_wraps : result 0x4408 (start (P - 1) 1 0) = some (0, 0b0001, 0, 0) := by decide +kernel
/-- V-ADD-3. -/
theorem test_add_large : result 0x4408 (start (P - 1) (P - 1) 0) = some (0, 0b0010, P - 2, P - 2) := by decide +kernel
/-- V-SUB-2: below 0. -/
theorem test_sub_wraps : result 0x5408 (start 0 1 0) = some (0, 0b0000, P - 1, P - 1) := by decide +kernel
/-- V-SUB-1: operand order. -/
theorem test_sub : result 0x5408 (start 5 3 0) = some (0, 0b0000, 2, 2) := by decide +kernel
/-- V-NEG-2. -/
theorem test_neg_zero : result 0x6400 (start 0 0 0) = some (0, 0b0001, 0, 0) := by decide +kernel
/-- V-NEG-3. -/
theorem test_neg : result 0x6400 (start gy 0 0) =
    some (0, 0b0010, 0xb7c52588d95c3b9aa25b0403f1eef75702e84bb7597aabe663b82f6f04ef2777,
      0xb7c52588d95c3b9aa25b0403f1eef75702e84bb7597aabe663b82f6f04ef2777) := by decide +kernel
/-- V-MUL-2. -/
theorem test_mul_largest : result 0x7408 (start (P - 1) (P - 1) 0) = some (0, 0b0010, 1, 1) := by decide +kernel
/-- V-MUL-4: a product of exactly 2^256. -/
theorem test_mul_no_truncation : result 0x7408 (start (2 ^ 128) (2 ^ 128) 0) = some (0, 0b0010, 0x1000003d1, 0x1000003d1) := by
  decide +kernel
/-- V-MONT-1. -/
theorem test_mont_one : result 0x8408 (start 1 1 0) = some (0, 0b0000, RINV, RINV) := by decide +kernel
/-- V-MONT-4. -/
theorem test_mont_r2 : result 0x8408 (start R2 R2 0) =
    some (0, 0b0010, 0x100000b73002bb1e33795f671, 0x100000b73002bb1e33795f671) := by decide +kernel
/-- V-EXP-2: 0^0 = 1. -/
theorem test_exp_zero_zero : result 0x9408 (start 0 0 0) = some (0, 0b0010, 1, 1) := by decide +kernel
/-- V-EXP-5. -/
theorem test_exp : result 0x9408 (start 3 (P - 2) 0) =
    some (0, 0b0010, 0xaaaaaaaaaaaaaaaaaaaaaaaaaaaaaaaaaaaaaaaaaaaaaaaaaaaaaaa9fffffd75,
      0xaaaaaaaaaaaaaaaaaaaaaaaaaaaaaaaaaaaaaaaaaaaaaaaaaaaaaaa9fffffd75) := by decide +kernel
/-- V-INV-6. -/
theorem test_inv_zero : result 0xa400 (start 0 0 0) = some (0, 0b0001, 0, 0) := by decide +kernel
/-- V-INV-7. -/
theorem test_inv : result 0xa400 (start gx 0 0) =
    some (0, 0b0000, 0x237afdf1d2938d86870aaeb8ad77626a67b8e794abfb076be61d003687ca9ef6,
      0x237afdf1d2938d86870aaeb8ad77626a67b8e794abfb076be61d003687ca9ef6) := by decide +kernel
/-- V-SQRT-4: a residue whose returned root is the larger. -/
theorem test_sqrt_nine : result 0xb400 (start 9 0 0) = some (0, 0b0100, P - 3, P - 3) := by decide +kernel
/-- V-SQRT-9: a non-residue's result is written, with QR = 0. -/
theorem test_sqrt_nonresidue : result 0xb400 (start (P - 1) 0 0) = some (0, 0b0010, 1, 1) := by decide +kernel
/-- V-ILL-2. -/
theorem test_illegal : result 0x4409 (start 5 3 0) = some (1, 0b0000, 0, 0) := by decide +kernel

/-! ### Edges: the reset and handshake vectors of 95_test_vectors.md -/

/-- The phase and F1 after one step. -/
def phaseAfter (s : State) : Option (Phase × Nat) :=
  match step s with
  | .next t => some (t.phase, (t.reg 1).toNat)
  | .fault _ | .refused _ => none

/-- A state in a phase, with F1 = 5, RSP = (01, 0000, 0), CMDL holding `word`, and the pins of the next edge. -/
def inPhase (ph : Phase) (word : CmdWord) (left : Nat) (p : Pins) : State :=
  { State.reset.writeReg 1 5 with
    phase := ph, cmdl := { word := word, data := 0 }, busyLeft := left, pins := [p], latencies := [1]
    rsp := { status := 1, flags := 0, data := 0 } }

/-- V-RST-2: a reset before completion aborts the command. -/
theorem test_reset_aborts_busy :
    phaseAfter (inPhase .busy 0xA200 1 { Pins.quiet with rst := true }) = some (.idle, 0) := by decide +kernel
/-- V-RST-3: the reset outranks the delivery. -/
theorem test_reset_discards_response :
    phaseAfter (inPhase .resp 0 0 { Pins.quiet with rst := true, rspReady := true }) = some (.idle, 0) := by decide +kernel
/-- V-HS-1: `LDI F0, 1` offered with LAT = 1 is accepted, completed, delivered; the engine is then IDLE with F0 = 1. -/
theorem test_handshake :
    (match run 3 (State.reset.issue { word := 0x3001, data := 0 } 1) with
      | .next t => (t.phase, (t.reg 0).toNat, t.rsp.data.toNat)
      | .fault _ | .refused _ => (.unused, 0, 0)) = (.idle, 1, 1) := by decide +kernel
/-- V-HS-2: no acceptance while a response is offered and not taken. -/
theorem test_no_acceptance_in_resp :
    phaseAfter (inPhase .resp 0 0 { Pins.quiet with cmdValid := true, cmdWord := 0x3001 }) = some (.resp, 5) := by decide +kernel
/-- U5: the unused phase code has no step. -/
theorem test_unused_phase : phaseAfter (inPhase .unused 0 0 Pins.quiet) = none := by decide +kernel

/-! ### Datapaths, bytes, assembler -/

/-- V-MONT-6 on the reference datapaths. -/
theorem test_datapaths : redc (P - 1) (P - 1) = RINV ∧ redc64 (P - 1) (P - 1) = RINV ∧ redc32 (P - 1) (P - 1) = RINV := by
  decide +kernel
/-- V-EXP-1 and V-INV-2 on the reference datapaths. -/
theorem test_mexp : mexp 2 10 = 0x400 ∧
    mexp 2 EINV = 0x7fffffffffffffffffffffffffffffffffffffffffffffffffffffff7ffffe18 := by decide +kernel
/-- R63: byte 0 is the most significant. -/
theorem test_big_endian : byteOf (BitVec.ofNat 256 gx) 0 = 0x79 ∧ byteOf (BitVec.ofNat 256 gx) 31 = 0x98 := by decide +kernel
/-- Program P1, step 5: the decode client's y of G. -/
theorem test_decode_y :
    (match decodeY false (BitVec.ofNat 256 gx) with
      | .ok y => some y.toNat
      | .error _ => none) = some gy := by decide +kernel
/-- R90, R91: `MOV F3, F1` and a refused immediate. -/
theorem test_assembler :
    assemble .mov [.reg 3, .reg 1] = some [{ word := 0x6640, data := 0 }, { word := 0x66c0, data := 0 }] ∧
      assemble .ldi [.reg 3, .int 8] = none ∧
      assemble .ld [.reg 0, .value (.sub (.name .p) (.lit 2))] = some [{ word := 0x1000, data := BitVec.ofNat 256 EINV }] := by
  decide +kernel
/-- R90: the lines of R92, R90's own two value expressions, and refused lines. -/
theorem test_assembler_text :
    (assembleLine "SQRT F3, F1 ; root".toList = some [{ word := 0xB640, data := 0 }] ∧
      assembleLine "  LDI  F2, 7".toList = some [{ word := 0x3407, data := 0 }]) ∧
    (assembleLine "LD F3, =P-2".toList = some [{ word := 0x1600, data := BitVec.ofNat 256 EINV }] ∧
      assembleLine "LD F1, =2^256-1".toList = some [{ word := 0x1200, data := BitVec.allOnes 256 }]) ∧
    (assembleLine ".word 0x4409".toList = some [{ word := 0x4409, data := 0 }] ∧ assembleLine "; empty".toList = some []) ∧
    (assembleLine "ST F8".toList = none ∧ assembleLine "ST F03".toList = none) ∧ assembleLine "LDI F2, 8".toList = none ∧ assembleLine "NOP F2".toList = none := by
  decide +kernel

/-- R87 on the abstract side: V-ILL-4 and V-ADD-1. -/
theorem test_execute :
    (execute (fun _ => 2) 0xa408 0).2.status = 0b01 ∧ (execute (fun _ => 2) 0x4408 0).2.data = 4 := by decide +kernel

/-! ### Witnesses: for each statement with hypotheses, a state and operands that meet them -/

/-- BUSY in the last edge, holding `ADD F2, F0, F1`. -/
def busyAdd : State := inPhase .busy 0x4408 1 Pins.quiet
/-- BUSY with two edges to go. -/
def busyLong : State := inPhase .busy 0x4408 2 Pins.quiet
/-- IDLE with `LDI F0, 1` offered. -/
def idleOffered : State := inPhase .idle 0 0 { Pins.quiet with cmdValid := true, cmdWord := 0x3001 }
/-- RESP with the response taken. -/
def respTaken : State := inPhase .resp 0 0 { Pins.quiet with rspReady := true }
/-- RESP with the response not taken. -/
def respWaiting : State := inPhase .resp 0 0 Pins.quiet

theorem canonical_inPhase (ph : Phase) (w : CmdWord) (n : Nat) (p : Pins) : (inPhase ph w n p).Canonical := by
  have h : ∀ r : Reg, ((State.reset.writeReg 1 5).reg r).toNat < P := by decide
  exact h

theorem legal_inPhase (ph : Phase) (w : CmdWord) (n : Nat) (p : Pins) : Response.Legal (inPhase ph w n p).rsp :=
  by
  have h : ∀ r ∈ [({ status := 1, flags := 0, data := 0 } : Response)],
      r.odd = r.data.getLsbD 0 ∧ (r.qr && r.gep) = false ∧ r.data.toNat < P := by decide
  obtain ⟨odd, exclusive, canonical⟩ := h _ (List.mem_singleton.2 rfl)
  exact ⟨.inr rfl, fun _ => ⟨rfl, rfl⟩, canonical, odd, fun _ => rfl, exclusive⟩

theorem one_le_maxLat : 1 ≤ Config.maxLat := Nat.le_add_left 1 Config.maxLatLessOne

/-- For the statements about every state with the invariant, RegistersStayCanonical and those with `Canonical` among them: a BUSY state. -/
theorem witness_inv : busyAdd.Inv where
  canonical := canonical_inPhase _ _ _ _
  phase := by decide
  response := legal_inPhase _ _ _ _
  busy := fun _ => ⟨Nat.le_refl 1, one_le_maxLat⟩
  waiting := fun h => absurd rfl h
  latencies := by
    intro n hn
    obtain rfl : n = 1 := by simpa [busyAdd, inPhase] using hn
    exact ⟨Nat.le_refl 1, one_le_maxLat⟩

theorem witness_decodeOfEncode : (Instr.add 7 7 7).wf = true ∧ (Instr.ldi 0 7).wf = true := by decide
theorem witness_encodeOfDecode : decode 0xBFC0 = .ok (.sqrt 7 7) := by rfl
theorem witness_stepRunsDecoded : busyAdd.nextPins.rst = false ∧ busyAdd.phase = .busy ∧ busyAdd.busyLeft ≤ 1 ∧
    decode busyAdd.cmdl.word = .ok (.add 2 0 1) := ⟨rfl, rfl, Nat.le_refl 1, rfl⟩
theorem witness_placedWord : decodeTableWord 16 0x4408 = some (.add 2 0 1) := by rfl

/-- One word for each clause of R200: opcode 0xC, and a one in rd, rs1, rs2 and imm where the format has none. -/
theorem witness_illegalWord :
    (∀ w ∈ ([0xC000, 0x2400, 0x1440, 0x340f, 0x4409] : List CmdWord),
      let s := inPhase .busy w 1 Pins.quiet
      s.nextPins.rst = false ∧ s.phase = .busy ∧ s.busyLeft ≤ 1) ∧
    0xC ≤ (0xC000 : CmdWord).toNat / 4096 ∧
    (Opcode.ofNumber ((0x2400 : CmdWord).toNat / 4096) = some .st ∧ Opcode.st.format.hasRd = false ∧
      (0x2400 : CmdWord).toNat / 512 % 8 ≠ 0) ∧
    (Opcode.ofNumber ((0x1440 : CmdWord).toNat / 4096) = some .ld ∧ Opcode.ld.format.hasRs1 = false ∧
      (0x1440 : CmdWord).toNat / 64 % 8 ≠ 0) ∧
    (Opcode.ofNumber ((0x340f : CmdWord).toNat / 4096) = some .ldi ∧ Opcode.ldi.format.hasRs2 = false ∧
      (0x340f : CmdWord).toNat / 8 % 8 ≠ 0) ∧
    (Opcode.ofNumber ((0x4409 : CmdWord).toNat / 4096) = some .add ∧ Opcode.add.format.hasImm = false ∧
      (0x4409 : CmdWord).toNat % 8 ≠ 0) := by
  refine ⟨?_, by decide, by decide, by decide, by decide, by decide⟩
  intro w _
  exact ⟨rfl, rfl, Nat.le_refl 1⟩

theorem witness_resetEdge : (inPhase .resp 0 0 { Pins.quiet with rst := true, rspReady := true }).nextPins.rst = true := by rfl
theorem witness_accepts : idleOffered.nextPins.rst = false ∧ idleOffered.phase = .idle ∧ idleOffered.nextPins.cmdValid = true :=
  ⟨rfl, rfl, rfl⟩
theorem witness_idles : (inPhase .idle 0 0 Pins.quiet).nextPins.rst = false ∧ (inPhase .idle 0 0 Pins.quiet).phase = .idle ∧
    (inPhase .idle 0 0 Pins.quiet).nextPins.cmdValid = false := ⟨rfl, rfl, rfl⟩
/-- Each of the three ways an edge is no acceptance edge. -/
theorem witness_noAcceptance : ({ Pins.quiet with rst := true } : Pins).rst = true ∧ busyAdd.phase ≠ .idle ∧
    Pins.quiet.cmdValid = false := by decide
theorem witness_latencyBounds : ∀ n ∈ idleOffered.latencies, 1 ≤ n ∧ n ≤ Config.maxLat := witness_inv.latencies
theorem witness_busyCounts : busyLong.nextPins.rst = false ∧ busyLong.phase = .busy ∧ 1 < busyLong.busyLeft := by decide
theorem witness_delivers : respTaken.nextPins.rst = false ∧ respTaken.phase = .resp ∧ respTaken.nextPins.rspReady = true := by decide
theorem witness_holds : respWaiting.nextPins.rst = false ∧ respWaiting.phase = .resp ∧ respWaiting.nextPins.rspReady = false := by
  decide
/-- PHASE moves by each of the four kinds of edge. -/
theorem witness_phaseMoves :
    phaseAfter idleOffered = some (.busy, 5) ∧ phaseAfter busyAdd = some (.resp, 5) ∧ phaseAfter respTaken = some (.idle, 5) ∧
      phaseAfter (inPhase .busy 0 1 { Pins.quiet with rst := true }) = some (.idle, 0) := by decide +kernel
theorem witness_stateChanges : ¬(busyLong.phase = .busy ∧ busyLong.busyLeft ≤ 1) ∧ busyLong.phase ≠ .unused ∧
    ¬(busyLong.phase = .idle ∧ busyLong.nextPins.cmdValid = true) := by decide
/-- `LAT` = 1: the acceptance edge and the one after it have no reset. -/
theorem witness_completes :
    let s := { idleOffered with pins := [{ Pins.quiet with cmdValid := true, cmdWord := 0x3001 }, Pins.quiet] }
    s.phase = .idle ∧ s.nextPins.cmdValid = true ∧
      ∀ k ≤ s.advance.nextLatency { word := s.nextPins.cmdWord, data := s.nextPins.cmdData }, (s.pinsAt k).rst = false := by
  refine ⟨rfl, rfl, ?_⟩
  intro k hk
  have h : k = 0 ∨ k = 1 := by
    have : k ≤ 1 := hk
    omega
  rcases h with rfl | rfl <;> rfl
/-- A BUSY state with the invariant whose next MAXLAT edges, all listed, have no reset. -/
theorem witness_busyCompletes :
    let s := { busyAdd with pins := List.replicate Config.maxLat Pins.quiet }
    s.Inv ∧ s.phase = .busy ∧ ∀ k < Config.maxLat, (s.pinsAt k).rst = false := by
  refine ⟨⟨witness_inv.canonical, witness_inv.phase, witness_inv.response, witness_inv.busy, witness_inv.waiting, witness_inv.latencies⟩,
    rfl, ?_⟩
  intro k hk
  simp [State.pinsAt, List.getD_eq_getElem?_getD, hk, Pins.quiet]
theorem witness_untaken :
    let s := { respWaiting with pins := [Pins.quiet, Pins.quiet] }
    s.phase = .resp ∧ ∀ k < 2, (s.pinsAt k).rst = false ∧ (s.pinsAt k).rspReady = false := by
  refine ⟨rfl, ?_⟩
  intro k hk
  have h : k = 0 ∨ k = 1 := by omega
  rcases h with rfl | rfl <;> exact ⟨rfl, rfl⟩
theorem witness_leastPeriod : State.reset.phase = .idle ∧ 1 ≤ 1 := by decide
theorem witness_refines : ∃ a, busyAdd.abstract = some a := ⟨_, rfl⟩
/-- Two states that agree on registers and command alone. -/
theorem witness_sameCommand : busyAdd.regs = ({ busyLong with edges := 7 } : State).regs ∧
    busyAdd.cmdl = ({ busyLong with edges := 7 } : State).cmdl ∧ busyAdd.busyLeft ≠ busyLong.busyLeft := by decide
theorem witness_notLd : (Instr.add 2 0 1).opcode ≠ .ld := by decide
theorem witness_notNop : (Instr.add 2 0 1).opcode ≠ .nop := by decide
theorem witness_illegalExists : ¬∃ i, decode (0xC000 : CmdWord) = .ok i := by
  rintro ⟨i, h⟩
  cases h
theorem witness_dest : (Instr.add 2 0 1).dest = some 2 ∧ (Instr.st 3).dest = none := by decide
theorem witness_negOperands : ((start 0 gy 0).reg 0).toNat = 0 ∧ ((start 0 gy 0).reg 1).toNat ≠ 0 := by decide +kernel
theorem witness_expExponents : ((start EINV ESQRT 0).reg 0).toNat = EINV ∧ ((start EINV ESQRT 0).reg 1).toNat = ESQRT := by
  decide +kernel
theorem witness_canonicalOperands : (BitVec.ofNat 256 gx).toNat < P ∧ (BitVec.ofNat 256 (P - 1)).toNat < P := by decide +kernel
theorem witness_square : (∀ r : Reg, ((start 4 1 0).reg r).toNat < P) ∧ (start 4 1 0).reg 0 = 4 ∧ (start 4 1 0).reg 0 ≠ 0 ∧
    (start 4 1 0).reg 1 = 1 ∧ mulP 2 2 = (start 4 1 0).reg 0 := by decide +kernel
/-- Both values of QR occur on canonical operands. -/
theorem witness_qrBothWays : result 0xb400 (start 4 0 0) = some (0, 0b0100, 2, 2) ∧
    (result 0xb400 (start 7 0 0)).map (fun x => x.2.1) = some 0b0000 := by decide +kernel
theorem witness_textOfCommand : (Instr.exp 4 0 3).opcode ≠ .ld := by decide
theorem witness_assembled : assemble .add [.reg 2, .reg 0, .reg 1] = some [plain (.add 2 0 1)] := by decide +kernel
/-- For each clause of AssemblerEmitsLegalWords: a fitting line, a wrong count, and each kind of operand out of range at its boundary, away from
the first place. -/
theorem witness_assemblerForms :
    (∃ form ∈ Mnemonic.ldi.forms, List.Forall₂ Slot.takes form [.reg 7, .int 7]) ∧
    (∀ form ∈ Mnemonic.word.forms, ([] : List Operand).length ≠ form.length) ∧
    (8 ≤ 8 ∧ Operand.reg 8 ∈ [Operand.reg 7, .reg 7, .reg 8]) ∧
    (((-1 : Int) < 0 ∧ Operand.int (-1) ∈ [Operand.reg 7, .int (-1)]) ∧ (65536 : Int) ≤ 65536) ∧
    ((2 : Int) ^ 256 ≤ (Expr.pow (.lit 2) 256).value ∧
      Operand.value (.pow (.lit 2) 256) ∈ [Operand.reg 7, .value (.pow (.lit 2) 256)]) ∧ Mnemonic.add ≠ .word := by
  refine ⟨⟨[.reg, .imm], by decide, .cons ?_ (.cons ?_ .nil)⟩, by decide, by decide, by decide, by decide +kernel, by decide⟩
  · show 7 < 8
    decide
  · show (0 : Int) ≤ 7 ∧ (7 : Int) < 8
    decide
theorem witness_ldValue : 0 ≤ (Expr.name .gx).value ∧ (Expr.name .gx).value < 2 ^ 256 := by decide +kernel
/-- The decode client's answers: a y (test_decode_y), x out of range, and x = 0, which is not on the curve. -/
theorem witness_decodeClient :
    (decodeY false (BitVec.ofNat 256 gx)).isOk = true ∧ (decodeY false (BitVec.ofNat 256 P)).isOk = false ∧
      (decodeY false 0).isOk = false := by decide +kernel

end Sys2Proof.Tests
end

/-! # Proofs of 00_scope.md: the field prime, the decode client and the point formula

A word stands for its residue in `ZMod P`. Each field operation of R14 is the operation of that ring, and a canonical word is known by
its residue, so an equation between results of the engine's operations is an equation of the field. -/

namespace Sys2Proof.Machine

/-! ### The field prime (R4) -/

/-- `P − 1 = 2 · 3 · 7 · 13441 · q`, and 3 has order `P − 1`. -/
theorem prime_P : Nat.Prime P := by
  refine prime_of_factors P 3 [2, 3, 7, 13441, 205115282021455665897114700593932402728804164701536103180137503955397371] (by decide) ?_
    P_lt one_lt_P (by decide +kernel) (by decide +kernel)
  simp only [List.forall_mem_cons, List.not_mem_nil, false_implies, implies_true, and_true]
  refine ⟨?_, ?_, ?_, ?_, prime_largest_factor⟩ <;> norm_num

/-- What Mathlib's facts about the field `ZMod P` ask for. -/
theorem fact_prime_P : Fact P.Prime := ⟨prime_P⟩

theorem P_mod_two : P % 2 = 1 := by decide

/-- Settles O46: the residues are computed, and primality is Lucas's test on the factors of `P − 1`. -/
theorem fieldPrimeIsPrime : Obligations.FieldPrimeIsPrime := by
  unfold Obligations.FieldPrimeIsPrime
  exact ⟨by decide, by decide, by decide, by decide, prime_P⟩

/-! ### Words as residues: the field operations of R14 in `ZMod P` -/

/-- The element of the field that a word stands for. -/
def residue (a : Word) : ZMod P := (a.toNat : ZMod P)

/-- Canonical words with one residue are one word. -/
theorem eq_of_residue_eq {a b : Word} (ha : a.toNat < P) (hb : b.toNat < P) (h : residue a = residue b) : a = b := by
  have mods := (ZMod.natCast_eq_natCast_iff' a.toNat b.toNat P).1 h
  rw [Nat.mod_eq_of_lt ha, Nat.mod_eq_of_lt hb] at mods
  exact BitVec.eq_of_toNat_eq mods

@[simp] theorem residue_modP (z : Int) : residue (modP z) = (z : ZMod P) := by
  have nonneg : 0 ≤ z % (P : Int) := Int.emod_nonneg z (by exact_mod_cast P_pos.ne')
  rw [residue, modP_toNat, ← Int.cast_natCast, Int.toNat_of_nonneg nonneg, ZMod.intCast_mod]

@[simp] theorem residue_addP (a b : Word) : residue (addP a b) = residue a + residue b := by
  rw [addP, residue_modP]
  simp [residue]

@[simp] theorem residue_subP (a b : Word) : residue (subP a b) = residue a - residue b := by
  rw [subP, residue_modP]
  simp [residue]

@[simp] theorem residue_negP (a : Word) : residue (negP a) = -residue a := by
  rw [negP, residue_modP]
  simp [residue]

@[simp] theorem residue_mulP (a b : Word) : residue (mulP a b) = residue a * residue b := by
  rw [mulP, residue_modP]
  simp [residue]

theorem residue_powP (a : Word) {e : Nat} (he : e < 2 ^ 256) : residue (powP a e) = residue a ^ e := by
  rw [residue, powP_toNat a he, ZMod.natCast_mod, Nat.cast_pow, residue]

theorem addP_lt (a b : Word) : (addP a b).toNat < P := modP_lt _

theorem subP_lt (a b : Word) : (subP a b).toNat < P := modP_lt _

theorem negP_lt (a : Word) : (negP a).toNat < P := modP_lt _

theorem mulP_lt (a b : Word) : (mulP a b).toNat < P := modP_lt _

/-! ### The point-addition formula (R8) -/

/-- Settles O57: both sides are canonical, and in the field they are `-(Py + λ(x₃ − Px))` and `λ(Px − x₃) − Py`. -/
theorem pointFormulaIsTheTextbookLaw : Obligations.PointFormulaIsTheTextbookLaw := by
  unfold Obligations.PointFormulaIsTheTextbookLaw
  intro l px py x3
  refine eq_of_residue_eq (negP_lt _) (subP_lt _ _) ?_
  simp only [sumY, residue_negP, residue_addP, residue_mulP, residue_subP]
  ring

/-! ### Square roots by the exponent `(P + 1) / 4` (R160, R163) -/

theorem ESQRT_lt : ESQRT < 2 ^ 256 := by decide

theorem four_mul_ESQRT : 4 * ESQRT = P + 1 := by decide

/-- Of a square, the power with exponent `(P + 1) / 4` is a root: its square is `b ^ (P + 1)`, and `b ^ P = b`. -/
theorem sq_pow_ESQRT_sq (b : ZMod P) : ((b ^ 2) ^ ESQRT) ^ 2 = b ^ 2 := by
  have := fact_prime_P
  calc ((b ^ 2) ^ ESQRT) ^ 2 = b ^ (4 * ESQRT) := by rw [← pow_mul, ← pow_mul]; congr 1
    _ = b ^ P * b := by rw [four_mul_ESQRT, pow_succ]
    _ = b ^ 2 := by rw [ZMod.pow_card, sq]

/-- The check of a root of a canonical word passes exactly when the word is a square mod P. -/
theorem mulP_powP_ESQRT_eq_iff {c : Word} (hc : c.toNat < P) :
    mulP (powP c ESQRT) (powP c ESQRT) = c ↔ ∃ b : Nat, b < P ∧ b * b % P = c.toNat := by
  constructor
  · intro check
    refine ⟨(powP c ESQRT).toNat, powP_lt c ESQRT, ?_⟩
    rw [← mulP_toNat, check]
  · rintro ⟨b, -, hb⟩
    have square : residue c = (b : ZMod P) ^ 2 := by
      rw [residue, ← hb, ZMod.natCast_mod, Nat.cast_mul, sq]
    refine eq_of_residue_eq (mulP_lt _ _) hc ?_
    rw [residue_mulP, residue_powP c ESQRT_lt, ← sq, square, sq_pow_ESQRT_sq]

/-! ### The decode client (R9) -/

theorem negP_toNat_of_ne_zero {a : Word} (hne : a ≠ 0) (hlt : a.toNat < P) : (negP a).toNat = P - a.toNat := by
  have hpos : a.toNat ≠ 0 := fun h => hne (BitVec.eq_of_toNat_eq h)
  rw [negP_toNat, ← Int.ofNat_sub hlt.le, ← Int.natCast_emod, Int.toNat_natCast, Nat.mod_eq_of_lt (by omega)]

/-- P is odd, so a nonzero word and its negation differ in parity. -/
theorem oddFlag_negP {a : Word} (hne : a ≠ 0) (hlt : a.toNat < P) : oddFlag (negP a) = !oddFlag a := by
  have odd := P_mod_two
  rw [oddFlag_eq, oddFlag_eq, negP_toNat_of_ne_zero hne hlt, ← decide_not, decide_eq_decide]
  omega

theorem mulP_negP_negP (a : Word) : mulP (negP a) (negP a) = mulP a a :=
  eq_of_residue_eq (mulP_lt _ _) (mulP_lt _ _) (by simp)

theorem selectRoot_eq_or (odd : Bool) (r : Word) : selectRoot odd r = r ∨ selectRoot odd r = negP r := by
  unfold selectRoot
  split
  · exact .inl rfl
  · exact .inr rfl

theorem selectRoot_lt (odd : Bool) {r : Word} (hr : r.toNat < P) : (selectRoot odd r).toNat < P := by
  obtain h | h := selectRoot_eq_or odd r <;> rw [h]
  · exact hr
  · exact negP_lt r

theorem mulP_selectRoot_self (odd : Bool) (r : Word) : mulP (selectRoot odd r) (selectRoot odd r) = mulP r r := by
  obtain h | h := selectRoot_eq_or odd r <;> rw [h]
  exact mulP_negP_negP r

theorem selectRoot_zero (odd : Bool) : selectRoot odd 0 = 0 := by
  cases odd <;> decide

/-- The word chosen has the wanted parity unless it is 0, which both roots then are. -/
theorem oddFlag_selectRoot (odd : Bool) {r : Word} (hr : r.toNat < P) (hne : selectRoot odd r ≠ 0) :
    oddFlag (selectRoot odd r) = odd := by
  have root_ne : r ≠ 0 := by
    rintro rfl
    exact hne (selectRoot_zero odd)
  unfold selectRoot
  split
  case isTrue same => exact eq_of_beq same
  case isFalse differ =>
    rw [oddFlag_negP root_ne hr]
    cases odd <;> simpa using differ

theorem curveRhs_lt (x : Word) : (curveRhs x).toNat < P := addP_lt _ _

theorem curveRhs_toNat (x : Word) : (curveRhs x).toNat = (x.toNat ^ 3 + 7) % P := by
  have cube : (mulP (mulP x x) x).toNat = x.toNat ^ 3 % P := by
    rw [mulP_toNat, mulP_toNat, Nat.mod_mul_mod, ← sq, ← pow_succ]
  have seven : (7 : Word).toNat = 7 := rfl
  rw [curveRhs, addP_toNat, cube, seven, Nat.mod_add_mod]

/-- The root of `x³ + 7` that the decode client forms and checks. -/
def curveRoot (x : Word) : Word := powP (curveRhs x) ESQRT

theorem curveRoot_lt (x : Word) : (curveRoot x).toNat < P := powP_lt _ _

/-- The check of the root passes exactly when the curve has a point with this x. -/
theorem curveRoot_check_iff (x : Word) :
    mulP (curveRoot x) (curveRoot x) = curveRhs x ↔ ∃ b : Nat, b < P ∧ b * b % P = (x.toNat ^ 3 + 7) % P := by
  rw [← curveRhs_toNat]
  exact mulP_powP_ESQRT_eq_iff (curveRhs_lt x)

/-- The client answers when x is in range and the root passes its check, and then with the chosen root. -/
theorem decodeY_eq_ok_iff (odd : Bool) (x y : Word) :
    decodeY odd x = .ok y ↔
      x.toNat < P ∧ mulP (curveRoot x) (curveRoot x) = curveRhs x ∧ selectRoot odd (curveRoot x) = y := by
  unfold decodeY curveRoot
  split
  case isTrue out => simp [out]
  case isFalse inRange =>
    dsimp only
    split
    case isTrue check => simp [not_le.1 inRange, eq_of_beq check]
    case isFalse check => simp [ne_of_beq_false (Bool.eq_false_of_not_eq_true check)]

/-- Settles O56: the root's check passes exactly when the curve equation has a solution, and the choice between the root and its negation
keeps the square and sets the parity. -/
theorem decodeClientIsRight : Obligations.DecodeClientIsRight := by
  unfold Obligations.DecodeClientIsRight
  intro odd x
  rw [← curveRoot_check_iff]
  simp only [decodeY_eq_ok_iff]
  constructor
  · constructor
    · rintro ⟨y, inRange, check, -⟩
      exact ⟨inRange, check⟩
    · rintro ⟨inRange, check⟩
      exact ⟨_, inRange, check, rfl⟩
  · rintro y ⟨-, check, rfl⟩
    refine ⟨selectRoot_lt odd (curveRoot_lt x), ?_, oddFlag_selectRoot odd (curveRoot_lt x)⟩
    rw [← mulP_toNat, mulP_selectRoot_self, check, curveRhs_toNat]

end Sys2Proof.Machine

/-! # Proofs of 10_state.md: what a command, an edge and a run of edges do

Three layers, each said once: the state in which a command or a completion edge ends; the seven things an edge can do (`StepsTo`); and runs
of edges in which the engine waits. The statements follow by cases on these. -/

namespace Sys2Proof.Machine

/-! ### What a command gives -/

/-- The value that a command answers with. -/
def resultOf (i : Instr) (s : State) : Word :=
  match i with
  | .nop => 0
  | .ld _ => BitVec.ofNat 256 (s.cmdl.data.toNat % P)
  | .st rs1 => s.reg rs1
  | .ldi _ imm => immediate imm
  | .add _ rs1 rs2 => addP (s.reg rs1) (s.reg rs2)
  | .sub _ rs1 rs2 => subP (s.reg rs1) (s.reg rs2)
  | .neg _ rs1 => negP (s.reg rs1)
  | .mul _ rs1 rs2 => mulP (s.reg rs1) (s.reg rs2)
  | .mont _ rs1 rs2 => montP (s.reg rs1) (s.reg rs2)
  | .exp _ rs1 rs2 => powP (s.reg rs1) (s.reg rs2).toNat
  | .inv _ rs1 => powP (s.reg rs1) EINV
  | .sqrt _ rs1 => powP (s.reg rs1) ESQRT

/-- GEP of a command: LD's data is at or above P (R35). -/
def gepOf (i : Instr) (s : State) : Bool :=
  match i with
  | .ld _ => decide (P ≤ s.cmdl.data.toNat)
  | _ => false

/-- QR of a command: SQRT's value squares to its operand (R35). -/
def qrOf (i : Instr) (s : State) : Bool :=
  match i with
  | .sqrt _ rs1 => mulP (powP (s.reg rs1) ESQRT) (powP (s.reg rs1) ESQRT) == s.reg rs1
  | _ => false

theorem gepOf_iff (i : Instr) (s : State) : gepOf i s = true ↔ ∃ rd, i = .ld rd ∧ P ≤ s.cmdl.data.toNat := by
  cases i <;> simp [gepOf]

theorem mulP_self_beq (r a : Word) : (mulP r r == a) = decide (r.toNat * r.toNat % P = a.toNat) := by
  rw [← mulP_toNat, Bool.eq_iff_iff, beq_iff_eq, decide_eq_true_iff, BitVec.toNat_inj]

theorem qrOf_iff (i : Instr) (s : State) :
    qrOf i s = true ↔
      ∃ rd rs1, i = .sqrt rd rs1 ∧ (resultOf i s).toNat * (resultOf i s).toNat % P = (s.reg rs1).toNat := by
  cases i <;> simp [qrOf, resultOf, mulP_self_beq]

/-- QR and GEP belong to different commands. -/
theorem qrOf_and_gepOf (i : Instr) (s : State) : (qrOf i s && gepOf i s) = false := by
  cases i <;> simp [qrOf, gepOf]

theorem resultOf_lt (i : Instr) {s : State} (h : s.Canonical) : (resultOf i s).toNat < P := by
  cases i with
  | nop => exact P_pos
  | ld rd => exact lt_of_eq_of_lt (toNat_ofNat_of_lt_P (Nat.mod_lt _ P_pos)) (Nat.mod_lt _ P_pos)
  | st rs1 => exact h rs1
  | ldi rd imm => exact immediate_lt imm
  | add | sub | neg | mul | mont => exact modP_lt _
  | exp | inv | sqrt => exact powP_lt _ _

theorem dest_eq_none_iff (i : Instr) : i.dest = none ↔ i.opcode = .nop ∨ i.opcode = .st := by
  cases i <;> simp [Instr.dest, Instr.opcode]

/-- A command with a destination retires its value there. -/
theorem effect_of_dest {i : Instr} {rd : Reg} (h : i.dest = some rd) (s : State) :
    effect i s = s.retire rd (gepOf i s) (qrOf i s) (resultOf i s) := by
  cases i with
  | nop | st => cases h
  | ld =>
    cases h
    exact Host.Outcome.next.inj ((exec_eq_effect _ s).symm.trans (execLd_eq _ s))
  | _ =>
    cases h
    rfl

/-- The three ways in which a command ends. -/
theorem effect_cases (i : Instr) (s : State) :
    (i = .nop ∧ effect i s = s.respond statusOk 0 0) ∨
      (∃ rs1, i = .st rs1 ∧ effect i s = s.respond statusOk (flagsOf false false (s.reg rs1)) (s.reg rs1)) ∨
      (∃ rd, i.dest = some rd ∧ effect i s = s.retire rd (gepOf i s) (qrOf i s) (resultOf i s)) := by
  cases i with
  | nop => exact .inl ⟨rfl, rfl⟩
  | st rs1 => exact .inr (.inl ⟨rs1, rfl, rfl⟩)
  | _ => exact .inr (.inr ⟨_, rfl, effect_of_dest rfl s⟩)

/-- The response of every command but NOP. -/
theorem rsp_effect {i : Instr} (h : i ≠ .nop) (s : State) :
    (effect i s).rsp =
      { status := statusOk, flags := flagsOf (gepOf i s) (qrOf i s) (resultOf i s), data := resultOf i s } := by
  obtain ⟨rfl, -⟩ | ⟨rs1, rfl, he⟩ | ⟨rd, -, he⟩ := effect_cases i s
  · exact absurd rfl h
  · rw [he]
    rfl
  · rw [he]
    rfl

/-- A command changes nothing but the registers, RSP and PHASE. -/
theorem effect_frame (i : Instr) (s : State) :
    effect i s = { s with regs := (effect i s).regs, rsp := (effect i s).rsp, phase := .resp } := by
  obtain ⟨-, he⟩ | ⟨_, -, he⟩ | ⟨_, -, he⟩ := effect_cases i s <;>
  · rw [he]
    rfl

/-- A register that is no destination keeps its value. -/
theorem reg_effect_of_ne {i : Instr} {r : Reg} (h : i.dest ≠ some r) (s : State) : (effect i s).reg r = s.reg r := by
  obtain ⟨-, he⟩ | ⟨_, -, he⟩ | ⟨rd, hd, he⟩ := effect_cases i s
  · rw [he, reg_respond]
  · rw [he, reg_respond]
  · rw [he, reg_retire, if_neg fun same => h (hd.trans (congrArg some same))]

theorem regs_effect_of_dest {i : Instr} {rd : Reg} (h : i.dest = some rd) (s : State) :
    (effect i s).regs = s.regs.set rd (effect i s).rsp.data := by
  rw [effect_of_dest h]
  rfl

/-- The destination holds the response's data. -/
theorem reg_effect_dest {i : Instr} {rd : Reg} (h : i.dest = some rd) (s : State) :
    (effect i s).reg rd = (effect i s).rsp.data := by
  rw [effect_of_dest h, reg_retire, if_pos rfl, rsp_retire]

/-! ### What a completion edge gives -/

/-- The state in which a completion edge ends. -/
def State.completed (s : State) : State :=
  match complete s with
  | .next t => t
  | .fault _ | .refused _ => s

theorem complete_of_decode {s : State} {i : Instr} (h : decode s.cmdl.word = .ok i) : complete s = exec i s := by
  rw [complete, h]

theorem complete_of_illegal {s : State} (h : ¬∃ i, decode s.cmdl.word = .ok i) : complete s = .next s.raiseIllegal := by
  cases hd : decode s.cmdl.word with
  | ok i => exact absurd ⟨i, hd⟩ h
  | error e => rw [complete, hd]

theorem completed_of_decode {s : State} {i : Instr} (h : decode s.cmdl.word = .ok i) : s.completed = effect i s := by
  rw [State.completed, complete_of_decode h, exec_eq_effect]

theorem completed_of_illegal {s : State} (h : ¬∃ i, decode s.cmdl.word = .ok i) : s.completed = s.raiseIllegal := by
  rw [State.completed, complete_of_illegal h]

/-- Every completion edge goes on. -/
theorem complete_eq_completed (s : State) : complete s = .next s.completed := by
  rw [State.completed, complete_eq]

/-- A completion edge ends in the command's effect, or in ILLEGAL. -/
theorem completed_cases (s : State) :
    (∃ i, decode s.cmdl.word = .ok i ∧ s.completed = effect i s) ∨ s.completed = s.raiseIllegal := by
  by_cases h : ∃ i, decode s.cmdl.word = .ok i
  · obtain ⟨i, hi⟩ := h
    exact .inl ⟨i, hi, completed_of_decode hi⟩
  · exact .inr (completed_of_illegal h)

/-- A completion edge changes nothing but the registers, RSP and PHASE. -/
theorem completed_frame (s : State) :
    s.completed = { s with regs := s.completed.regs, rsp := s.completed.rsp, phase := .resp } := by
  obtain ⟨i, -, h⟩ | h := completed_cases s
  · rw [h]
    exact effect_frame i s
  · rw [h]
    rfl

@[simp] theorem phase_completed (s : State) : s.completed.phase = .resp := by rw [completed_frame]

@[simp] theorem cmdl_completed (s : State) : s.completed.cmdl = s.cmdl := by rw [completed_frame]

@[simp] theorem busyLeft_completed (s : State) : s.completed.busyLeft = s.busyLeft := by rw [completed_frame]

@[simp] theorem latencies_completed (s : State) : s.completed.latencies = s.latencies := by rw [completed_frame]

/-! ### What an edge can do -/

/-- The command on the command port at the coming edge. -/
def State.offered (s : State) : Command := { word := s.nextPins.cmdWord, data := s.nextPins.cmdData }

/-- Everything an edge that goes on can do (R40 to R42, R230). -/
inductive StepsTo (s : State) : State → Prop where
  | reset (rst : s.nextPins.rst = true) : StepsTo s s.advance.resetEdge
  | accept (rst : s.nextPins.rst = false) (phase : s.phase = .idle) (valid : s.nextPins.cmdValid = true) :
      StepsTo s (s.advance.accept s.offered)
  | idle (rst : s.nextPins.rst = false) (phase : s.phase = .idle) (valid : s.nextPins.cmdValid = false) :
      StepsTo s s.advance
  | count (rst : s.nextPins.rst = false) (phase : s.phase = .busy) (more : 1 < s.busyLeft) :
      StepsTo s { s.advance with busyLeft := s.busyLeft - 1 }
  | complete (rst : s.nextPins.rst = false) (phase : s.phase = .busy) (last : s.busyLeft ≤ 1) :
      StepsTo s ({ s.advance with busyLeft := 0 } : State).completed
  | deliver (rst : s.nextPins.rst = false) (phase : s.phase = .resp) (ready : s.nextPins.rspReady = true) :
      StepsTo s { s.advance with phase := .idle }
  | hold (rst : s.nextPins.rst = false) (phase : s.phase = .resp) (ready : s.nextPins.rspReady = false) :
      StepsTo s s.advance

theorem StepsTo.step_eq {s t : State} (h : StepsTo s t) : step s = .next t := by
  cases h with
  | reset rst => simp [step, edge, rst]
  | accept rst phase valid => simp [step, edge, rst, phase, State.idleEdge, valid, State.offered]
  | idle rst phase valid => simp [step, edge, rst, phase, State.idleEdge, valid]
  | count rst phase more => simp [step, edge, rst, phase, busyEdge, Nat.not_le.2 more]
  | complete rst phase last => simp [step, edge, rst, phase, busyEdge, last, complete_eq_completed]
  | deliver rst phase ready => simp [step, edge, rst, phase, State.respEdge, ready]
  | hold rst phase ready => simp [step, edge, rst, phase, State.respEdge, ready]

/-- Every edge goes on, but one without reset from the unreachable phase code (R36). -/
theorem exists_stepsTo {s : State} (h : s.phase ≠ .unused) : ∃ t, StepsTo s t := by
  cases rst : s.nextPins.rst with
  | true => exact ⟨_, .reset rst⟩
  | false =>
    cases phase : s.phase with
    | idle =>
      cases valid : s.nextPins.cmdValid with
      | true => exact ⟨_, .accept rst phase valid⟩
      | false => exact ⟨_, .idle rst phase valid⟩
    | busy =>
      by_cases last : s.busyLeft ≤ 1
      · exact ⟨_, .complete rst phase last⟩
      · exact ⟨_, .count rst phase (by omega)⟩
    | resp =>
      cases ready : s.nextPins.rspReady with
      | true => exact ⟨_, .deliver rst phase ready⟩
      | false => exact ⟨_, .hold rst phase ready⟩
    | unused => exact absurd phase h

theorem step_of_unused {s : State} (rst : s.nextPins.rst = false) (h : s.phase = .unused) :
    step s = .fault .phaseUnused := by
  simp [step, edge, rst, h]

/-- `StepsTo` is the step relation. -/
theorem step_eq_next_iff {s t : State} : step s = .next t ↔ StepsTo s t := by
  refine ⟨fun h => ?_, StepsTo.step_eq⟩
  have goes_on : ∃ u, StepsTo s u := by
    by_cases phase : s.phase = .unused
    · cases rst : s.nextPins.rst with
      | true => exact ⟨_, .reset rst⟩
      | false =>
        rw [step_of_unused rst phase] at h
        cases h
    · exact exists_stepsTo phase
  obtain ⟨u, hu⟩ := goes_on
  obtain rfl : u = t := Host.Outcome.next.inj (hu.step_eq.symm.trans h)
  exact hu


theorem nextLatency_pos (s : State) (c : Command) : 1 ≤ s.nextLatency c := by
  unfold State.nextLatency
  split
  · exact le_max_left _ _
  · exact Nat.le_add_left 1 _

theorem nextLatency_le {s : State} (h : ∀ n ∈ s.latencies, 1 ≤ n ∧ n ≤ Config.maxLat) (c : Command) :
    s.nextLatency c ≤ Config.maxLat := by
  unfold State.nextLatency
  split
  case h_1 n _ listed => exact max_le (Nat.le_add_left 1 _) (h n (by simp [listed])).2
  case h_2 => exact (Config.latLessOne _ _ _).isLt

/-! ### The invariant -/

theorem State.Canonical.of_regs {s t : State} (h : s.Canonical) (regs : t.regs = s.regs) : t.Canonical := by
  intro r
  rw [State.reg, regs]
  exact h r

theorem canonical_retire {s : State} (h : s.Canonical) (rd : Reg) (gep qr : Bool) {v : Word} (hv : v.toNat < P) :
    (s.retire rd gep qr v).Canonical := by
  intro r
  rw [reg_retire]
  split
  · exact hv
  · exact h r

theorem canonical_effect (i : Instr) {s : State} (h : s.Canonical) : (effect i s).Canonical := by
  obtain ⟨-, he⟩ | ⟨_, -, he⟩ | ⟨rd, -, he⟩ := effect_cases i s <;> rw [he]
  · exact h.of_regs rfl
  · exact h.of_regs rfl
  · exact canonical_retire h rd _ _ (resultOf_lt i h)

theorem canonical_completed {s : State} (h : s.Canonical) : s.completed.Canonical := by
  obtain ⟨i, -, he⟩ | he := completed_cases s <;> rw [he]
  · exact canonical_effect i h
  · exact h.of_regs rfl

theorem canonical_of_reg_eq_zero {s : State} (h : ∀ r, s.reg r = 0) : s.Canonical := by
  intro r
  rw [h r]
  exact P_pos

/-- Every edge keeps the registers canonical: only a completion edge writes one. -/
theorem StepsTo.canonical {s t : State} (h : StepsTo s t) (hs : s.Canonical) : t.Canonical := by
  cases h with
  | reset => exact canonical_of_reg_eq_zero (reg_resetEdge _)
  | complete => exact canonical_completed (hs.of_regs rfl)
  | accept | idle | count | deliver | hold => exact hs.of_regs rfl

theorem legal_zero {st : Status} (h : st = 0b00 ∨ st = 0b01) : Response.Legal { status := st, flags := 0, data := 0 } where
  status := h
  illegal _ := ⟨rfl, rfl⟩
  canonical := P_pos
  odd := by simp [Response.odd]
  zero _ := rfl
  exclusive := by simp [Response.qr]

theorem legal_ok {gep qr : Bool} {v : Word} (hv : v.toNat < P) (excl : (qr && gep) = false) :
    Response.Legal { status := statusOk, flags := flagsOf gep qr v, data := v } where
  status := .inl rfl
  illegal h := absurd (show (0b00 : Status) = 0b01 from h) (by decide)
  canonical := hv
  odd := odd_flagsOf statusOk gep qr v v
  zero h := by
    rw [z_flagsOf] at h
    exact eq_of_beq h
  exclusive := by rw [qr_flagsOf, gep_flagsOf, excl]

theorem legal_effect (i : Instr) {s : State} (h : s.Canonical) : Response.Legal (effect i s).rsp := by
  by_cases hi : i = .nop
  · subst hi
    exact legal_zero (.inl rfl)
  · rw [rsp_effect hi]
    exact legal_ok (resultOf_lt i h) (qrOf_and_gepOf i s)

theorem legal_completed {s : State} (h : s.Canonical) : Response.Legal s.completed.rsp := by
  obtain ⟨i, -, he⟩ | he := completed_cases s <;> rw [he]
  · exact legal_effect i h
  · exact legal_zero (.inr rfl)

/-- Every edge keeps the invariant. -/
theorem StepsTo.inv {s t : State} (h : StepsTo s t) (hs : s.Inv) : t.Inv := by
  have canonical := h.canonical hs.canonical
  cases h with
  | reset =>
    exact
      { canonical
        phase := by simp
        response := legal_zero (.inl rfl)
        busy := by simp
        waiting := by simp
        latencies := hs.latencies }
  | accept =>
    exact
      { canonical
        phase := by simp
        response := hs.response
        busy := fun _ => ⟨nextLatency_pos _ _, nextLatency_le (s := s.advance) hs.latencies _⟩
        waiting := by simp
        latencies := fun n hn => hs.latencies n (List.mem_of_mem_tail hn) }
  | idle | hold => exact { hs with canonical }
  | count _ phase more =>
    have := hs.busy phase
    exact
      { hs with
        canonical
        busy := fun _ => by dsimp only; omega
        waiting := fun h => absurd phase h }
  | complete =>
    exact
      { canonical
        phase := by simp
        response := legal_completed (hs.canonical.of_regs rfl)
        busy := by simp
        waiting := by simp
        latencies := by simpa using hs.latencies }
  | deliver _ phase =>
    exact
      { canonical
        phase := by simp
        response := hs.response
        busy := by simp
        waiting := fun _ => hs.waiting (by simp [phase])
        latencies := hs.latencies }

/-- Settles O23: reset gives zeros, and only a completion edge writes a register, with a result of the field. -/
theorem registersStayCanonical : Obligations.RegistersStayCanonical := by
  unfold Obligations.RegistersStayCanonical
  exact ⟨canonical_of_reg_eq_zero reg_reset, fun s t hs h => (step_eq_next_iff.1 h).canonical hs⟩

/-- Settles O24: every register is 0, RSP is the response with all fields 0, and the model's own fields list nothing. -/
theorem resetMeetsTheInvariant : Obligations.ResetMeetsTheInvariant where
  canonical := canonical_of_reg_eq_zero reg_reset
  phase := by decide
  response := legal_zero (.inl rfl)
  busy h := absurd h (by decide)
  waiting _ := rfl
  latencies n hn := absurd hn (List.not_mem_nil)

/-- Settles O25: outside the unreachable phase code every edge goes on, and `StepsTo.inv` keeps the invariant. -/
theorem everyStepIsSafe : Obligations.EveryStepIsSafe := by
  unfold Obligations.EveryStepIsSafe
  intro s hs
  obtain ⟨t, h⟩ := exists_stepsTo hs.phase
  exact ⟨t, h.step_eq, h.inv hs⟩

/-! ### The transaction-level view (R43) -/

/-- The registers as natural numbers. -/
def State.values (s : State) : Values := fun r => (s.reg r).toNat

theorem values_retire (s : State) (rd : Reg) (gep qr : Bool) (v : Word) :
    (s.retire rd gep qr v).values = Function.update s.values rd v.toNat := by
  funext r
  by_cases h : r = rd
  · subst h
    simp [State.values, reg_retire]
  · simp [State.values, reg_retire, h, Ne.symm h]

theorem okResponse_toNat (gep qr : Bool) (v : Word) :
    okResponse gep qr v.toNat = { status := statusOk, flags := flagsOf gep qr v, data := v } := by
  rw [okResponse, flagNumber, ← flagsOf_eq_ofNat, BitVec.ofNat_toNat, BitVec.setWidth_eq]
  rfl

/-- R43's `produce` is what retiring a value does to registers and RSP. -/
theorem produce_eq_retire (s : State) (rd : Reg) (gep qr : Bool) (v : Word) {n : Nat} (hn : v.toNat = n) :
    produce s.values rd gep qr n = ((s.retire rd gep qr v).values, (s.retire rd gep qr v).rsp) := by
  rw [← hn, produce, okResponse_toNat, values_retire, rsp_retire]

theorem toNat_mask (o : Opcode) : o.mask.toNat = maskOf o.number := by
  cases o <;> rfl

theorem toNat_pattern (o : Opcode) : o.pattern.toNat = o.number * 4096 := by
  cases o <;> rfl

/-- A word selects an opcode's row when its number does. -/
theorem selects_iff (w : CmdWord) (o : Opcode) :
    w &&& o.mask = o.pattern ↔ w.toNat &&& maskOf o.number = o.number * 4096 := by
  rw [← BitVec.toNat_inj, BitVec.toNat_and, toNat_mask, toNat_pattern]

/-- The test for ILLEGAL in `execute` fails exactly for the words that decode. -/
theorem exists_decode_iff (w : CmdWord) :
    (∃ i, decode w = .ok i) ↔
      ¬(12 ≤ w.toNat / 4096 ∨ w.toNat &&& maskOf (w.toNat / 4096) ≠ w.toNat / 4096 * 4096) := by
  cases ho : Opcode.ofNumber (w.toNat / 4096) with
  | none =>
    have reserved := Opcode.ofNumber_eq_none.1 ho
    simp [decode_of_reserved reserved, reserved]
  | some o =>
    have assigned : ¬12 ≤ w.toNat / 4096 := fun h => by simp [Opcode.ofNumber_eq_none.2 h] at ho
    have number := Opcode.number_of_ofNumber ho
    rw [decode_of_opcode ho, ne_eq, ← number, ← selects_iff, number]
    by_cases row : w &&& o.mask = o.pattern <;> simp [row, assigned]

theorem finOfNat_rd (w : CmdWord) : Fin.ofNat 8 (w.toNat / 512) = CmdWord.rd w := Fin.ext (CmdWord.rd_val w).symm

theorem finOfNat_rs1 (w : CmdWord) : Fin.ofNat 8 (w.toNat / 64) = CmdWord.rs1 w := Fin.ext (CmdWord.rs1_val w).symm

theorem finOfNat_rs2 (w : CmdWord) : Fin.ofNat 8 (w.toNat / 8) = CmdWord.rs2 w := Fin.ext (CmdWord.rs2_val w).symm

theorem execute_of_illegal {w : CmdWord} (h : ¬∃ i, decode w = .ok i) (f : Values) (d : Word) :
    execute f w d = (f, { status := statusIllegal, flags := 0, data := 0 }) := by
  rw [exists_decode_iff, not_not] at h
  exact if_pos h

theorem powP_EINV_toNat (a : Word) : (powP a EINV).toNat = a.toNat ^ (P - 2) % P := by
  rw [powP_toNat a (by decide), show EINV = P - 2 by decide]

theorem powP_ESQRT_toNat (a : Word) : (powP a ESQRT).toNat = a.toNat ^ ((P + 1) / 4) % P := by
  rw [powP_toNat a ESQRT_lt, show ESQRT = (P + 1) / 4 by decide]

/-- A 256-bit value needs at most one subtraction of P. -/
theorem condSub_eq_mod (d : Word) : (if P ≤ d.toNat then d.toNat - P else d.toNat) = d.toNat % P := by
  have := two_pow_lt_two_P
  have := d.isLt
  split
  case isTrue h => rw [Nat.mod_eq_sub_mod h, Nat.mod_eq_of_lt (by omega)]
  case isFalse h => rw [Nat.mod_eq_of_lt (by omega)]

/-- `execute` of a legal word is what the command does to registers and RSP. -/
theorem execute_of_decode {s : State} {i : Instr} (h : decode s.cmdl.word = .ok i) :
    execute s.values s.cmdl.word s.cmdl.data = ((effect i s).values, (effect i s).rsp) := by
  have legal := (exists_decode_iff _).1 ⟨i, h⟩
  obtain ⟨op, -, command⟩ := decode_eq_ok h
  have number := Opcode.number_of_ofNumber op
  rw [execute, if_neg legal, finOfNat_rd, finOfNat_rs1, finOfNat_rs2, ← number, command]
  cases i.opcode with
  | nop => rfl
  | ld =>
    rw [effect_of_dest rfl]
    exact produce_eq_retire _ _ _ _ _ ((toNat_ofNat_of_lt_P (Nat.mod_lt _ P_pos)).trans (condSub_eq_mod _).symm)
  | st => exact congrArg (Prod.mk s.values) (okResponse_toNat _ _ _)
  | ldi => exact produce_eq_retire _ _ _ _ _ ((immediate_toNat _).trans (CmdWord.imm_toNat _))
  | add => exact produce_eq_retire _ _ _ _ _ (addP_toNat _ _)
  | sub => exact produce_eq_retire _ _ _ _ _ (subP_toNat _ _)
  | neg => exact produce_eq_retire _ _ _ _ _ (negP_toNat _)
  | mul => exact produce_eq_retire _ _ _ _ _ (mulP_toNat _ _)
  | mont => exact produce_eq_retire _ _ _ _ _ (montP_toNat _ _)
  | exp => exact produce_eq_retire _ _ _ _ _ (powP_toNat _ (BitVec.isLt _))
  | inv => exact produce_eq_retire _ _ _ _ _ (powP_EINV_toNat _)
  | sqrt =>
    have square := mulP_self_beq (powP (s.reg (CmdWord.rs1 s.cmdl.word)) ESQRT) (s.reg (CmdWord.rs1 s.cmdl.word))
    rw [powP_ESQRT_toNat] at square
    exact (congrArg (produce s.values _ false · _) square.symm).trans (produce_eq_retire _ _ _ _ _ (powP_ESQRT_toNat _))

/-- `execute` is what a completion edge does to registers and RSP (R41). -/
theorem execute_eq_completed (s : State) :
    execute s.values s.cmdl.word s.cmdl.data = (s.completed.values, s.completed.rsp) := by
  by_cases h : ∃ i, decode s.cmdl.word = .ok i
  · obtain ⟨i, hi⟩ := h
    rw [execute_of_decode hi, completed_of_decode hi]
  · rw [execute_of_illegal h, completed_of_illegal h]
    rfl

theorem abstract_idle {s : State} (h : s.phase = .idle) : s.abstract = some ⟨s.values, .idle⟩ := by
  rw [State.abstract, h]
  rfl

theorem abstract_busy {s : State} (h : s.phase = .busy) :
    s.abstract = some ⟨s.values, .busy s.cmdl.word s.cmdl.data⟩ := by
  rw [State.abstract, h]
  rfl

theorem abstract_resp {s : State} (h : s.phase = .resp) : s.abstract = some ⟨s.values, .resp s.rsp⟩ := by
  rw [State.abstract, h]
  rfl

theorem values_of_reg_eq_zero {s : State} (h : ∀ r, s.reg r = 0) : s.values = fun _ => 0 := by
  funext r
  simp [State.values, h]

/-- R43 of one edge: its event moves the abstract state by the relation; without one the abstract state stays. -/
def Refines (s : State) (a b : Transaction) : Prop :=
  match s.event s.nextPins with
  | some e => Transaction.Moves e a b
  | none => b = a

theorem refines_of_moves {s : State} {a b : Transaction} {e : Event} (h : Transaction.Moves e a b)
    (event : s.event s.nextPins = some e) : Refines s a b := by
  rwa [Refines, event]

theorem refines_self {s : State} (a : Transaction) (event : s.event s.nextPins = none) : Refines s a a := by
  rw [Refines, event]

/-- Each of the seven kinds of edge is its transition of R43, or a wait. -/
theorem StepsTo.refines {s t : State} (h : StepsTo s t) {a : Transaction} (ha : s.abstract = some a) :
    ∃ b, t.abstract = some b ∧ Refines s a b := by
  cases h with
  | reset rst =>
    refine ⟨_, abstract_idle (phase_resetEdge _), ?_⟩
    rw [values_of_reg_eq_zero (reg_resetEdge _)]
    exact refines_of_moves (.reset a) (by simp [State.event, rst])
  | accept rst phase valid =>
    cases (abstract_idle phase).symm.trans ha
    exact ⟨_, abstract_busy rfl, refines_of_moves (.accept _ _ _) (by simp [State.event, State.offered, rst, phase, valid])⟩
  | idle rst phase valid =>
    cases (abstract_idle phase).symm.trans ha
    exact ⟨_, abstract_idle phase, refines_self _ (by simp [State.event, rst, phase, valid])⟩
  | count rst phase more =>
    cases (abstract_busy phase).symm.trans ha
    exact ⟨_, abstract_busy phase, refines_self _ (by simp [State.event, rst, phase, more])⟩
  | complete rst phase last =>
    cases (abstract_busy phase).symm.trans ha
    have moves := Transaction.Moves.complete s.values s.cmdl.word s.cmdl.data
    have execute_eq := execute_eq_completed { s.advance with busyLeft := 0 }
    rw [show execute s.values s.cmdl.word s.cmdl.data = _ from execute_eq] at moves
    exact ⟨_, abstract_resp (phase_completed _), refines_of_moves moves (by simp [State.event, rst, phase, last])⟩
  | deliver rst phase ready =>
    cases (abstract_resp phase).symm.trans ha
    exact ⟨_, abstract_idle rfl, refines_of_moves (.deliver _ _) (by simp [State.event, rst, phase, ready])⟩
  | hold rst phase ready =>
    cases (abstract_resp phase).symm.trans ha
    exact ⟨_, abstract_resp phase, refines_self _ (by simp [State.event, rst, phase, ready])⟩

theorem phase_ne_unused_of_abstract {s : State} {a : Transaction} (h : s.abstract = some a) : s.phase ≠ .unused := by
  intro phase
  simp [State.abstract, phase] at h

/-- Settles O26: each kind of edge refines R43 (`StepsTo.refines`), with R43's `execute` equal to the completion edge. -/
theorem edgesRefineTransactions : Obligations.EdgesRefineTransactions := by
  unfold Obligations.EdgesRefineTransactions
  intro s a ha
  obtain ⟨t, h⟩ := exists_stepsTo (phase_ne_unused_of_abstract ha)
  obtain ⟨b, hb, refines⟩ := h.refines ha
  exact ⟨t, b, h.step_eq, hb, refines⟩

theorem regs_eq_of_values_eq {s t : State} (h : s.values = t.values) : s.regs = t.regs := by
  ext r hr : 1
  exact BitVec.eq_of_toNat_eq (congrFun h ⟨r, hr⟩)

/-- Settles O27: a completion edge is R43's `execute`, which is a function of the registers, the word and the data. -/
theorem resultDependsOnlyOnCommandAndRegisters : Obligations.ResultDependsOnlyOnCommandAndRegisters := by
  unfold Obligations.ResultDependsOnlyOnCommandAndRegisters
  intro s s' regs cmdl
  have values : s.values = s'.values := by
    funext r
    simp only [State.values, State.reg, regs]
  have same : (s.completed.values, s.completed.rsp) = (s'.completed.values, s'.completed.rsp) := by
    rw [← execute_eq_completed, ← execute_eq_completed, values, cmdl]
  obtain ⟨same_values, same_rsp⟩ := Prod.mk.inj same
  exact ⟨_, _, complete_eq_completed s, complete_eq_completed s', regs_eq_of_values_eq same_values, same_rsp,
    phase_completed s, phase_completed s'⟩

/-! ### The statements about one edge -/

/-- Settles O7: the last BUSY edge is a completion edge, and that of a legal word is its command's execution. -/
theorem stepRunsDecodedCommand : Obligations.StepRunsDecodedCommand := by
  unfold Obligations.StepRunsDecodedCommand
  intro s i rst phase last legal
  calc step s = .next ({ s.advance with busyLeft := 0 } : State).completed := (StepsTo.complete rst phase last).step_eq
    _ = complete { s.advance with busyLeft := 0 } := (complete_eq_completed _).symm
    _ = exec i { s.advance with busyLeft := 0 } := complete_of_decode legal

/-- Settles O8: the placed word stands in CMDL with its last BUSY edge next, so O7 applies. -/
theorem placedWordRunsNext : Obligations.PlacedWordRunsNext := by
  unfold Obligations.PlacedWordRunsNext
  intro s nbits w i legal
  have decodes : decode (s.withFetchWord nbits w).cmdl.word = .ok i := by
    unfold decodeTableWord at legal
    cases h : decode (BitVec.ofNat 16 (w % 2 ^ nbits)) with
    | ok j =>
      rw [h] at legal
      cases legal
      exact h
    | error e =>
      rw [h] at legal
      cases legal
  exact ⟨_, stepRunsDecodedCommand (s.withFetchWord nbits w) i rfl rfl le_rfl decodes, rfl, rfl, rfl, rfl, rfl⟩

/-- Settles O10: each is a field of the reset state. -/
theorem resetValues : Obligations.ResetValues := by
  unfold Obligations.ResetValues
  exact ⟨reg_reset, rfl, rfl, rfl, rfl⟩

/-- `cmd_word` and `cmd_data` are read at an acceptance edge only. -/
theorem edge_commandPort {p : Pins} {s : State} (h : p.rst = true ∨ s.phase ≠ .idle ∨ p.cmdValid = false)
    (w : CmdWord) (d : Word) : edge { p with cmdWord := w, cmdData := d } s = edge p s := by
  unfold edge State.idleEdge State.respEdge
  obtain rst | phase | valid := h
  · simp [rst]
  · cases hp : s.phase with
    | idle => exact absurd hp phase
    | busy | resp | unused => rfl
  · simp [valid]

/-- Settles O12: the acceptance and idle edges of `StepsTo`, and `edge_commandPort` for the other edges. -/
theorem acceptanceSamplesTheCommand : Obligations.AcceptanceSamplesTheCommand := by
  unfold Obligations.AcceptanceSamplesTheCommand
  refine ⟨fun s rst phase => ⟨fun valid => ?_, fun valid => ?_⟩, ?_⟩
  · exact ⟨_, (StepsTo.accept rst phase valid).step_eq, rfl, rfl, rfl, rfl⟩
  · exact (StepsTo.idle rst phase valid).step_eq
  · intro s p rest w d h
    exact edge_commandPort (s := ({ s with pins := p :: rest } : State).advance) h w d

/-- Settles O13: both a listed and a free latency lie in the bounds. -/
theorem acceptedLatencyInBounds : Obligations.AcceptedLatencyInBounds := by
  unfold Obligations.AcceptedLatencyInBounds
  intro s rst phase valid listed
  exact ⟨_, (StepsTo.accept rst phase valid).step_eq, nextLatency_pos s.advance s.offered,
    nextLatency_le (s := s.advance) listed s.offered⟩

/-- Settles O14: the counting edge of `StepsTo`. -/
theorem busyEdgeOnlyCounts : Obligations.BusyEdgeOnlyCounts := by
  unfold Obligations.BusyEdgeOnlyCounts
  exact fun s rst phase more => (StepsTo.count rst phase more).step_eq

/-- Settles O15: the delivering and the holding edge of `StepsTo`. -/
theorem deliveryKeepsTheResponse : Obligations.DeliveryKeepsTheResponse := by
  unfold Obligations.DeliveryKeepsTheResponse
  exact fun s rst phase =>
    ⟨fun ready => (StepsTo.deliver rst phase ready).step_eq, fun ready => (StepsTo.hold rst phase ready).step_eq⟩

/-- Settles O16: the ports are functions of PHASE, RSP and `rst`, and no listed pin enters them. -/
theorem outputPortsFollowPhase : Obligations.OutputPortsFollowPhase := by
  unfold Obligations.OutputPortsFollowPhase
  intro s rst
  refine ⟨?_, ?_, fun phase => ?_, fun ps => ⟨rfl, rfl⟩⟩
  · simp [State.outputs, State.cmdReady]
  · simp [State.outputs, State.rspValid]
  · simp [State.outputs, State.rspValid, phase]

theorem code_eq_three_iff (x : Phase) : x.code = 0b11 ↔ x = .unused := by
  cases x <;> decide

/-- No edge ends in the unreachable phase code. -/
theorem StepsTo.phase_ne_unused {s t : State} (h : StepsTo s t) : t.phase ≠ .unused := by
  cases h with
  | reset | accept | complete | deliver => simp
  | idle _ phase | count _ phase | hold _ phase => simp [phase]

/-- Settles O17: of the seven kinds of edge only reset, acceptance, completion and delivery change PHASE. -/
theorem phaseMovesOnlyByTheRules : Obligations.PhaseMovesOnlyByTheRules := by
  unfold Obligations.PhaseMovesOnlyByTheRules
  refine ⟨rfl, rfl, rfl, fun s t step_eq => ?_⟩
  have h := step_eq_next_iff.1 step_eq
  refine ⟨fun code => h.phase_ne_unused ((code_eq_three_iff _).1 code), fun moved => ?_⟩
  cases h with
  | reset rst => exact .inl ⟨rst, rfl⟩
  | accept rst phase valid => exact .inr ⟨rst, .inl ⟨phase, valid, rfl⟩⟩
  | complete rst phase last => exact .inr ⟨rst, .inr (.inl ⟨phase, last, phase_completed _⟩)⟩
  | deliver rst phase ready => exact .inr ⟨rst, .inr (.inr ⟨phase, ready, rfl⟩)⟩
  | idle | count | hold => exact absurd rfl moved

/-- Settles O18: a completion edge keeps CMDL, an acceptance edge the registers and RSP, and the others without reset keep all three. -/
theorem stateChangesOnlyAtItsEdge : Obligations.StateChangesOnlyAtItsEdge := by
  unfold Obligations.StateChangesOnlyAtItsEdge
  intro s no_reset used
  obtain ⟨t, h⟩ := exists_stepsTo used
  refine ⟨t, h.step_eq, fun no_completion => ?_, fun no_acceptance => ?_⟩
  · cases h with
    | reset rst => simp [rst] at no_reset
    | complete _ phase last => exact absurd ⟨phase, last⟩ no_completion
    | accept | idle | count | deliver | hold => exact ⟨rfl, rfl⟩
  · cases h with
    | reset rst => simp [rst] at no_reset
    | accept _ phase valid => exact absurd ⟨phase, valid⟩ no_acceptance
    | complete => exact cmdl_completed _
    | idle | count | deliver | hold => rfl

/-! ### Runs of edges in which the engine waits -/

/-- The state with the pins of `k` edges used up. -/
def State.later (s : State) (k : Nat) : State := { s with pins := s.pins.drop k, edges := s.edges + k }

theorem advance_later (s : State) (k : Nat) : (s.later k).advance = s.later (k + 1) := by
  simp [State.later, State.advance, List.tail_drop, Nat.add_assoc]

theorem nextPins_later (s : State) (k : Nat) : (s.later k).nextPins = s.pinsAt k := by
  rw [nextPins_eq_pinsAt]
  simp [State.pinsAt, State.later, List.getD_eq_getElem?_getD]

/-- A run through states each of which steps to the next. -/
theorem run_of_stepsTo (f : Nat → State) (n : Nat) (h : ∀ k < n, StepsTo (f k) (f (k + 1))) : run n (f 0) = .next (f n) := by
  induction n with
  | zero => rfl
  | succ n ih =>
    rw [run_add (ih fun k hk => h k (Nat.lt_succ_of_lt hk)), run_succ_of_step (h n (Nat.lt_succ_self n)).step_eq]
    rfl

/-- The state after `k` edges in BUSY. -/
def State.waited (s : State) (k : Nat) : State := { s.later k with busyLeft := s.busyLeft - k }

theorem waited_succ (s : State) (k : Nat) :
    s.waited (k + 1) = { (s.waited k).advance with busyLeft := (s.waited k).busyLeft - 1 } := by
  simp only [State.waited, ← advance_later, Nat.sub_add_eq]
  rfl

theorem nextPins_waited (s : State) (k : Nat) : (s.waited k).nextPins = s.pinsAt k := nextPins_later s k

/-- Before the completion edge a BUSY engine only counts. -/
theorem run_busy {s : State} {n : Nat} (phase : s.phase = .busy) (hn : n < s.busyLeft)
    (rst : ∀ k < n, (s.pinsAt k).rst = false) : run n s = .next (s.waited n) := by
  refine run_of_stepsTo s.waited n fun k hk => ?_
  have no_reset := rst k hk
  have more : 1 < s.busyLeft - k := by omega
  rw [← nextPins_waited] at no_reset
  rw [waited_succ]
  exact .count no_reset phase more

/-- The completion edge of a BUSY engine is the last of its `busyLeft` edges. -/
theorem run_completes {s : State} {n : Nat} (phase : s.phase = .busy) (left : s.busyLeft = n + 1)
    (rst : ∀ k ≤ n, (s.pinsAt k).rst = false) :
    run (n + 1) s = .next ({ s.later (n + 1) with busyLeft := 0 } : State).completed := by
  have no_reset := rst n le_rfl
  have last : s.busyLeft - n ≤ 1 := by omega
  rw [← nextPins_waited] at no_reset
  rw [run_add (run_busy phase (by omega) fun k hk => rst k hk.le), ← advance_later]
  exact run_succ_of_step (StepsTo.complete no_reset phase last).step_eq 0

/-- Settles O20: the completion edge is the last of the `busyLeft` edges, which the invariant bounds by MAXLAT. -/
theorem busyCompletesWithinMaxLat : Obligations.BusyCompletesWithinMaxLat := by
  unfold Obligations.BusyCompletesWithinMaxLat
  intro s inv phase rst
  obtain ⟨pos, bound⟩ := inv.busy phase
  obtain ⟨n, left⟩ := Nat.exists_eq_add_of_le' pos
  exact ⟨n + 1, _, by omega, by omega, run_completes phase left fun k hk => rst k (by omega), phase_completed _⟩

/-- Settles O19: acceptance loads the count with LAT, the engine counts for LAT - 1 edges, and the edge after those completes. -/
theorem completesExactlyLatEdgesLater : Obligations.CompletesExactlyLatEdgesLater := by
  unfold Obligations.CompletesExactlyLatEdgesLater
  intro s c lat phase valid rst
  have accepts : step s = .next (s.advance.accept c) :=
    (StepsTo.accept ((congrArg Pins.rst (nextPins_eq_pinsAt s)).trans (rst 0 (Nat.zero_le _))) phase valid).step_eq
  have no_reset (k : Nat) (hk : k < lat) : ((s.advance.accept c).pinsAt k).rst = false :=
    (congrArg Pins.rst (pinsAt_advance s k)).trans (rst (k + 1) hk)
  have pos : 1 ≤ lat := nextLatency_pos s.advance c
  refine ⟨pos, fun k one_le le_lat => ?_, ?_⟩
  · obtain ⟨j, rfl⟩ := Nat.exists_eq_add_of_le' one_le
    refine ⟨(s.advance.accept c).waited j, ?_, rfl, rfl, rfl, rfl⟩
    rw [run_succ_of_step accepts]
    exact run_busy rfl le_lat fun k hk => no_reset k (by omega)
  · obtain ⟨n, left⟩ := Nat.exists_eq_add_of_le' pos
    refine ⟨_, _, ?_, ?_, complete_eq_completed { (s.advance.accept c).later lat with busyLeft := 0 }, ?_, phase_completed _⟩
    · rfl
    · rfl
    · rw [run_succ_of_step accepts, left]
      exact run_completes rfl left fun k hk => no_reset k (by omega)

/-- In RESP an engine whose response is not taken only waits. -/
theorem run_resp {s : State} {n : Nat} (phase : s.phase = .resp)
    (quiet : ∀ k < n, (s.pinsAt k).rst = false ∧ (s.pinsAt k).rspReady = false) : run n s = .next (s.later n) := by
  refine run_of_stepsTo s.later n fun k hk => ?_
  obtain ⟨rst, ready⟩ := quiet k hk
  rw [← nextPins_later] at rst ready
  rw [← advance_later]
  exact .hold rst phase ready

/-- Settles O21: by `run_resp` only the pins are used up. -/
theorem untakenResponseStaysOffered : Obligations.UntakenResponseStaysOffered := by
  unfold Obligations.UntakenResponseStaysOffered
  intro s n phase quiet
  refine ⟨_, run_resp phase quiet, phase, rfl, rfl, rfl, fun rst => ?_⟩
  simp [State.cmdReady, State.later, phase]

/-! ### The frames and flags of the commands -/

/-- Settles O30: a command changes the registers, RSP and PHASE only, and of the registers its destination. -/
theorem commandFrame : Obligations.CommandFrame := by
  unfold Obligations.CommandFrame
  intro i s
  refine ⟨_, exec_eq_effect i s, fun r h => reg_effect_of_ne h s, fun r h => reg_effect_dest h s, ?_⟩
  rw [effect_frame]
  exact ⟨rfl, rfl, rfl, rfl, rfl, rfl⟩

/-- Settles O31: the rules of `writeReg`, and the registers in which each kind of command ends. -/
theorem registersAreIndependent : Obligations.RegistersAreIndependent := by
  unfold Obligations.RegistersAreIndependent
  refine ⟨fun s i v => ⟨reg_writeReg_same s v i, fun j h => reg_writeReg_of_ne s v i (Ne.symm h)⟩, ?_, ?_, ?_, ?_, dest_eq_none_iff⟩
  · exact fun s => ⟨_, exec_eq_effect .nop s, rfl⟩
  · exact fun s r => ⟨_, exec_eq_effect (.st r) s, rfl⟩
  · exact fun s illegal => ⟨_, complete_of_illegal illegal, rfl⟩
  · exact fun i s rd h => ⟨_, exec_eq_effect i s, regs_effect_of_dest h s⟩

/-- Settles O32: the response's flags are `flagsOf` of the command's GEP, QR and value, read back one by one. -/
theorem flagsOfEveryResponse : Obligations.FlagsOfEveryResponse := by
  unfold Obligations.FlagsOfEveryResponse
  refine ⟨fun s => ⟨_, exec_eq_effect .nop s, rfl⟩, fun s illegal => ⟨_, complete_of_illegal illegal, rfl⟩, ?_⟩
  intro i s h
  refine ⟨_, exec_eq_effect i s, ?_⟩
  rw [rsp_effect fun nop => h (congrArg Instr.opcode nop), z_flagsOf, odd_flagsOf, qr_flagsOf, gep_flagsOf, oddFlag_eq, decide_eq_true_iff]
  exact ⟨beq_iff_eq, Iff.rfl, qrOf_iff i s, gepOf_iff i s⟩

end Sys2Proof.Machine

/-! # Proofs of 20_memory.md: the byte order

The bytes of a word are its digits in base 256. That a byte string gives its bytes back is Mathlib's theory of digits; the other way follows,
since a word is known by its bytes. -/

namespace Sys2Proof.Machine

/-! ### Big-endian bytes (R63) -/

/-- The bytes as digits in base 256, the least significant first. -/
def digitsOfBytes (b : Vector (BitVec 8) 32) : List Nat := b.toList.reverse.map BitVec.toNat

theorem length_digitsOfBytes (b : Vector (BitVec 8) 32) : (digitsOfBytes b).length = 32 := by
  simp [digitsOfBytes]

theorem digitsOfBytes_lt (b : Vector (BitVec 8) 32) : ∀ d ∈ digitsOfBytes b, d < 256 := by
  intro d hd
  obtain ⟨x, -, rfl⟩ := List.mem_map.1 hd
  exact x.isLt

theorem getElem_digitsOfBytes (b : Vector (BitVec 8) 32) (k : Fin 32) :
    (digitsOfBytes b)[31 - k.val]'(by rw [length_digitsOfBytes]; omega) = b[k].toNat := by
  have hk : 31 - (31 - k.val) = k.val := by omega
  simp [digitsOfBytes, hk]

/-- The model's fold is Mathlib's value of a list of digits, and 32 digits fit in a word. -/
theorem toNat_wordOfBytes (b : Vector (BitVec 8) 32) : (wordOfBytes b).toNat = Nat.ofDigits 256 (digitsOfBytes b) := by
  have hfold : b.toList.foldl (fun acc x => acc * 256 + x.toNat) 0 = Nat.ofDigits 256 (digitsOfBytes b) := by
    simp [digitsOfBytes, Nat.ofDigits_eq_foldr, List.foldl_map, Nat.add_comm, Nat.mul_comm]
  have hlt : Nat.ofDigits 256 (digitsOfBytes b) < 2 ^ 256 := by
    simpa [length_digitsOfBytes] using Nat.ofDigits_lt_base_pow_length (by decide) (digitsOfBytes_lt b)
  rw [wordOfBytes, hfold, BitVec.toNat_ofNat, Nat.mod_eq_of_lt hlt]

/-- Dividing by a power of 256 drops digits, and the remainder mod 256 is the first digit left. -/
theorem ofDigits_div_pow_mod {l : List Nat} (hl : ∀ d ∈ l, d < 256) {i : Nat} (hi : i < l.length) :
    Nat.ofDigits 256 l / 256 ^ i % 256 = l[i] := by
  rw [Nat.ofDigits_div_pow_eq_ofDigits_drop i (by decide) l hl, List.drop_eq_getElem_cons hi, Nat.ofDigits_cons,
    Nat.add_mul_mod_self_left, Nat.mod_eq_of_lt (hl _ (List.getElem_mem hi))]

theorem toNat_byteOf (w : Word) (k : Fin 32) : (byteOf w k).toNat = w.toNat / 256 ^ (31 - k.val) % 256 := by
  have hshift : 248 - 8 * k.val = 8 * (31 - k.val) := by omega
  rw [byteOf, BitVec.extractLsb'_toNat, Nat.shiftRight_eq_div_pow, hshift, Nat.pow_mul]

theorem byteOf_wordOfBytes (b : Vector (BitVec 8) 32) (k : Fin 32) : byteOf (wordOfBytes b) k = b[k] := by
  have hk : 31 - k.val < (digitsOfBytes b).length := by rw [length_digitsOfBytes]; omega
  apply BitVec.eq_of_toNat_eq
  rw [toNat_byteOf, toNat_wordOfBytes, ofDigits_div_pow_mod (digitsOfBytes_lt b) hk, getElem_digitsOfBytes]

theorem getElem_bytesOfWord (w : Word) (k : Fin 32) : (bytesOfWord w)[k] = byteOf w k := Vector.getElem_ofFn k.isLt

/-- Bit `i` of a word lies in byte `31 − i / 8`, so words with the same bytes are one word. -/
theorem eq_of_byteOf_eq {v w : Word} (h : ∀ k, byteOf v k = byteOf w k) : v = w := by
  ext i hi
  have hbyte := congrArg (fun x => x.getLsbD (i % 8)) (h ⟨31 - i / 8, by omega⟩)
  have hbit : 248 - 8 * (31 - i / 8) + i % 8 = i := by omega
  simpa [byteOf, hbit, Nat.mod_lt, hi] using hbyte

/-- Settles O53: byte `k` is a digit of the word in base 256, and a word and the word of its bytes have the same bytes. -/
theorem bigEndianBytes : Obligations.BigEndianBytes := by
  unfold Obligations.BigEndianBytes
  refine ⟨byteOf_wordOfBytes, fun w => eq_of_byteOf_eq fun k => ?_⟩
  rw [byteOf_wordOfBytes, getElem_bytesOfWord]

end Sys2Proof.Machine

/-! # Proofs of 30_encoding.md: the encoding of the commands

A word is known by its five fields (`Fields.ofWord`), and masking acts on each field by itself. So a word selects a row of the opcode map
exactly when its fields are well formed with the row's opcode, and it decodes to the one command written with these fields. -/

namespace Sys2Proof

/-! ### The fields of a word (R81) -/

/-- The fields of a word as numbers. -/
def Fields.ofWord (w : CmdWord) : Fields :=
  ⟨(CmdWord.op w).toNat, (CmdWord.rd w).val, (CmdWord.rs1 w).val, (CmdWord.rs2 w).val, (CmdWord.imm w).toNat⟩

theorem Fields.ofWord_eq (w : CmdWord) :
    Fields.ofWord w = ⟨w.toNat / 4096, w.toNat / 512 % 8, w.toNat / 64 % 8, w.toNat / 8 % 8, w.toNat % 8⟩ := by
  rw [Fields.ofWord, CmdWord.op_toNat, CmdWord.rd_val, CmdWord.rs1_val, CmdWord.rs2_val, CmdWord.imm_toNat]

@[simp] theorem Fields.word_ofWord (w : CmdWord) : (Fields.ofWord w).word = w := by
  have digits : w.toNat / 4096 * 4096 + w.toNat / 512 % 8 * 512 + w.toNat / 64 % 8 * 64 + w.toNat / 8 % 8 * 8 +
      w.toNat % 8 = w.toNat := by omega
  rw [Fields.ofWord_eq, Fields.word, digits, BitVec.ofNat_toNat, BitVec.setWidth_eq]

theorem Fields.ofWord_injective : Function.Injective Fields.ofWord :=
  Function.LeftInverse.injective Fields.word_ofWord

theorem fieldOk_iff {carried : Bool} {v : Nat} : fieldOk carried v = true ↔ v < 8 ∧ (carried = true ∨ v = 0) := by
  simp [fieldOk]

/-- A field that may stay out of the command is 0. -/
theorem ite_eq_of_fieldOk {carried : Bool} {v : Nat} (h : fieldOk carried v = true) : (if carried then v else 0) = v := by
  obtain ⟨-, rfl | rfl⟩ := fieldOk_iff.1 h
  · exact if_pos rfl
  · exact ite_self 0

theorem Fields.wf_iff {x : Fields} {o : Opcode} (h : Opcode.ofNumber x.op = some o) :
    x.wf = true ↔
      fieldOk o.format.hasRd x.rd = true ∧ fieldOk o.format.hasRs1 x.rs1 = true ∧
        fieldOk o.format.hasRs2 x.rs2 = true ∧ fieldOk o.format.hasImm x.imm = true := by
  simp only [Fields.wf, h, Bool.and_eq_true, and_assoc]

/-- Well-formed fields have an assigned opcode. -/
theorem Fields.exists_opcode {x : Fields} (h : x.wf = true) : ∃ o, Opcode.ofNumber x.op = some o := by
  cases ho : Opcode.ofNumber x.op with
  | none => simp [Fields.wf, ho] at h
  | some o => exact ⟨o, rfl⟩

theorem Fields.lt_of_wf {x : Fields} (h : x.wf = true) : x.op < 12 ∧ x.rd < 8 ∧ x.rs1 < 8 ∧ x.rs2 < 8 ∧ x.imm < 8 := by
  obtain ⟨o, ho⟩ := Fields.exists_opcode h
  obtain ⟨rd, rs1, rs2, imm⟩ := (Fields.wf_iff ho).1 h
  have assigned : ¬12 ≤ x.op := fun reserved => by simp [Opcode.ofNumber_eq_none.2 reserved] at ho
  exact ⟨by omega, (fieldOk_iff.1 rd).1, (fieldOk_iff.1 rs1).1, (fieldOk_iff.1 rs2).1, (fieldOk_iff.1 imm).1⟩

theorem Fields.toNat_word {x : Fields} (h : x.wf = true) :
    x.word.toNat = x.op * 4096 + x.rd * 512 + x.rs1 * 64 + x.rs2 * 8 + x.imm := by
  obtain ⟨op, rd, rs1, rs2, imm⟩ := Fields.lt_of_wf h
  rw [Fields.word, BitVec.toNat_ofNat, Nat.mod_eq_of_lt (by omega)]

theorem Fields.ofWord_word {x : Fields} (h : x.wf = true) : Fields.ofWord x.word = x := by
  have bounds := Fields.lt_of_wf h
  rw [Fields.ofWord_eq, Fields.toNat_word h]
  obtain ⟨op, rd, rs1, rs2, imm⟩ := x
  simp only [Fields.mk.injEq] at *
  omega

/-! ### The rows of the opcode map (R83) -/

/-- The bits that a row's mask has in a field: none where the format carries it, all three where it must be zero. -/
def fieldMask (carried : Bool) : Nat := if carried then 0 else 7

theorem and_fieldMask_eq_zero_iff (carried : Bool) {v : Nat} (h : v < 8) :
    v &&& fieldMask carried = 0 ↔ fieldOk carried v = true := by
  have all : v &&& 7 = v := Nat.and_two_pow_sub_one_of_lt_two_pow (n := 3) h
  rw [fieldOk_iff]
  cases carried <;> simp [fieldMask, all, h]

theorem Fields.ofWord_and (v w : CmdWord) :
    Fields.ofWord (v &&& w) =
      ⟨(Fields.ofWord v).op &&& (Fields.ofWord w).op, (Fields.ofWord v).rd &&& (Fields.ofWord w).rd,
        (Fields.ofWord v).rs1 &&& (Fields.ofWord w).rs1, (Fields.ofWord v).rs2 &&& (Fields.ofWord w).rs2,
        (Fields.ofWord v).imm &&& (Fields.ofWord w).imm⟩ := by
  simp [Fields.ofWord, CmdWord.op, CmdWord.rd, CmdWord.rs1, CmdWord.rs2, CmdWord.imm, BitVec.extractLsb'_and]

theorem Opcode.ofWord_mask (o : Opcode) :
    Fields.ofWord o.mask =
      ⟨15, fieldMask o.format.hasRd, fieldMask o.format.hasRs1, fieldMask o.format.hasRs2, fieldMask o.format.hasImm⟩ := by
  cases o <;> decide

theorem Opcode.ofWord_pattern (o : Opcode) : Fields.ofWord o.pattern = ⟨o.number, 0, 0, 0, 0⟩ := by
  cases o <;> decide

/-- A word selects a row exactly when it has the row's opcode and well-formed fields. -/
theorem Opcode.selects_iff_wf (o : Opcode) (w : CmdWord) :
    w &&& o.mask = o.pattern ↔ (Fields.ofWord w).op = o.number ∧ (Fields.ofWord w).wf = true := by
  have op_and : (Fields.ofWord w).op &&& 15 = (Fields.ofWord w).op :=
    Nat.and_two_pow_sub_one_of_lt_two_pow (n := 4) (CmdWord.op w).isLt
  rw [← Fields.ofWord_injective.eq_iff, Fields.ofWord_and, Opcode.ofWord_mask, Opcode.ofWord_pattern, Fields.mk.injEq, op_and]
  refine and_congr_right fun op => ?_
  rw [Fields.wf_iff (o := o) (by rw [op, Opcode.ofNumber_number])]
  exact and_congr (and_fieldMask_eq_zero_iff _ (CmdWord.rd w).isLt) <| and_congr (and_fieldMask_eq_zero_iff _ (CmdWord.rs1 w).isLt) <|
    and_congr (and_fieldMask_eq_zero_iff _ (CmdWord.rs2 w).isLt) (and_fieldMask_eq_zero_iff _ (CmdWord.imm w).isLt)

theorem Instr.op_fields (i : Instr) : i.fields.op = i.opcode.number := by
  cases i <;> rfl

/-- No command is outside the encoding. -/
theorem Instr.wf_eq_true (i : Instr) : i.wf = true := by
  cases i with
  | nop => exact Laws.WellFormed.nop
  | ld => exact Laws.WellFormed.ld _
  | st => exact Laws.WellFormed.st _
  | ldi => exact Laws.WellFormed.ldi _ _
  | add => exact Laws.WellFormed.add _ _ _
  | sub => exact Laws.WellFormed.sub _ _ _
  | neg => exact Laws.WellFormed.neg _ _
  | mul => exact Laws.WellFormed.mul _ _ _
  | mont => exact Laws.WellFormed.mont _ _ _
  | exp => exact Laws.WellFormed.exp _ _ _
  | inv => exact Laws.WellFormed.inv _ _
  | sqrt => exact Laws.WellFormed.sqrt _ _

@[simp] theorem ofWord_encode (i : Instr) : Fields.ofWord (encode i) = i.fields := Fields.ofWord_word i.wf_eq_true

/-- A command's operands are read from any word with its fields. -/
theorem command_of_fields {w : CmdWord} {i : Instr} (h : Fields.ofWord w = i.fields) : i.opcode.command w = i := by
  obtain ⟨-, rd, rs1, rs2, imm⟩ := Fields.mk.inj h
  cases i with
  | nop => rfl
  | ld => exact congrArg _ (Fin.ext rd)
  | st => exact congrArg _ (Fin.ext rs1)
  | ldi => exact congrArg₂ _ (Fin.ext rd) (BitVec.eq_of_toNat_eq imm)
  | neg | inv | sqrt => exact congrArg₂ _ (Fin.ext rd) (Fin.ext rs1)
  | add | sub | mul | mont | exp => exact congr (congrArg₂ _ (Fin.ext rd) (Fin.ext rs1)) (Fin.ext rs2)

/-- A row's command takes from the word the fields that the row's format carries. -/
theorem Opcode.fields_command (o : Opcode) (w : CmdWord) :
    (o.command w).fields =
      ⟨o.number, if o.format.hasRd then (Fields.ofWord w).rd else 0, if o.format.hasRs1 then (Fields.ofWord w).rs1 else 0,
        if o.format.hasRs2 then (Fields.ofWord w).rs2 else 0, if o.format.hasImm then (Fields.ofWord w).imm else 0⟩ := by
  cases o <;> rfl

/-- In a word that selects the row nothing is left out: the fields that the format does not carry are 0. -/
theorem Opcode.fields_command_of_selects {w : CmdWord} {o : Opcode} (h : w &&& o.mask = o.pattern) :
    (o.command w).fields = Fields.ofWord w := by
  obtain ⟨op, wf⟩ := (o.selects_iff_wf w).1 h
  obtain ⟨rd, rs1, rs2, imm⟩ := (Fields.wf_iff (by rw [op, Opcode.ofNumber_number])).1 wf
  rw [Opcode.fields_command, ← op, ite_eq_of_fieldOk rd, ite_eq_of_fieldOk rs1, ite_eq_of_fieldOk rs2, ite_eq_of_fieldOk imm]

/-- A word decodes to the one command that has the word's fields. -/
theorem decode_eq_ok_iff_fields {w : CmdWord} {i : Instr} : decode w = .ok i ↔ Fields.ofWord w = i.fields := by
  constructor
  · intro h
    obtain ⟨-, row, command⟩ := decode_eq_ok h
    rw [command, Opcode.fields_command_of_selects row]
  · intro h
    have op : (Fields.ofWord w).op = i.opcode.number := by rw [h, Instr.op_fields]
    have row : w &&& i.opcode.mask = i.opcode.pattern := (i.opcode.selects_iff_wf w).2 ⟨op, h ▸ i.wf_eq_true⟩
    have assigned : Opcode.ofNumber (w.toNat / 4096) = some i.opcode := by
      rw [← CmdWord.op_toNat, ← i.opcode.ofNumber_number, ← op]
      rfl
    rw [decode_of_opcode assigned, if_pos row, command_of_fields h]

/-- Decoding and encoding are inverse. -/
theorem decode_eq_ok_iff {w : CmdWord} {i : Instr} : decode w = .ok i ↔ encode i = w := by
  rw [decode_eq_ok_iff_fields, ← ofWord_encode, Fields.ofWord_injective.eq_iff, eq_comm]

@[simp] theorem decode_encode (i : Instr) : decode (encode i) = .ok i := decode_eq_ok_iff.2 rfl

theorem encode_injective : Function.Injective encode := fun i j h => by
  simpa using congrArg decode h

/-- Settles O2: the encoded word has the command's fields, by which `decode_eq_ok_iff` finds the command. -/
theorem decodeOfEncode : Obligations.DecodeOfEncode := by
  unfold Obligations.DecodeOfEncode
  exact fun i _ => decode_encode i

/-- Settles O3: the other direction of `decode_eq_ok_iff`, as a word is known by its fields. -/
theorem encodeOfDecode : Obligations.EncodeOfDecode := by
  unfold Obligations.EncodeOfDecode
  exact fun w i => decode_eq_ok_iff.1

/-- Settles O1: the encodings are computed, and decoding is the inverse. -/
theorem workedEncodingsBothWays : Obligations.WorkedEncodingsBothWays := by
  unfold Obligations.WorkedEncodingsBothWays
  intro x hx
  have encodes : encode x.1 = x.2 := by
    revert x
    decide
  exact ⟨encodes, decode_eq_ok_iff.2 encodes⟩

/-- Settles O4: well-formed fields fit their places, so the sum of R81 is below 2^16 and its digits are the fields. -/
theorem fieldsStandInTheWord : Obligations.FieldsStandInTheWord := by
  unfold Obligations.FieldsStandInTheWord
  intro i
  exact ⟨Fields.toNat_word i.wf_eq_true, Fields.mk.inj (ofWord_encode i)⟩

theorem exists_decode_iff_wf (w : CmdWord) : (∃ i, decode w = .ok i) ↔ (Fields.ofWord w).wf = true := by
  constructor
  · rintro ⟨i, h⟩
    rw [decode_eq_ok_iff_fields.1 h]
    exact i.wf_eq_true
  · intro wf
    obtain ⟨o, assigned⟩ := Fields.exists_opcode wf
    have row := (o.selects_iff_wf w).2 ⟨(Opcode.number_of_ofNumber assigned).symm, wf⟩
    exact ⟨o.command w, decode_eq_ok_iff_fields.2 (Opcode.fields_command_of_selects row).symm⟩

theorem decode_eq_reserved_iff (w : CmdWord) : decode w = .error .reservedOpcode ↔ 12 ≤ w.toNat / 4096 := by
  refine ⟨fun h => ?_, decode_of_reserved⟩
  rw [← Opcode.ofNumber_eq_none]
  cases assigned : Opcode.ofNumber (w.toNat / 4096) with
  | none => rfl
  | some o =>
    rw [decode_of_opcode assigned] at h
    split at h <;> cases h

theorem Opcode.number_injective : Function.Injective Opcode.number := fun o p h => by
  have same : Opcode.ofNumber o.number = Opcode.ofNumber p.number := congrArg _ h
  simpa [Opcode.ofNumber_number] using same

/-- Settles O5: a row is selected by its opcode and well-formed fields, and an opcode is known by its number. -/
theorem legalExactlyByTheFormats : Obligations.LegalExactlyByTheFormats := by
  unfold Obligations.LegalExactlyByTheFormats
  intro w
  refine ⟨fun i h => ?_, ?_, decode_eq_reserved_iff w⟩
  · obtain ⟨assigned, row, -⟩ := decode_eq_ok h
    refine ⟨Opcode.number_of_ofNumber assigned, row, fun o row' => Opcode.number_injective ?_⟩
    rw [← ((o.selects_iff_wf w).1 row').1, ← ((i.opcode.selects_iff_wf w).1 row).1]
  · rw [exists_decode_iff_wf, Fields.ofWord_eq]

/-! ### How many words are legal (R83) -/

/-- A command is one of twelve kinds with its operands. -/
def Instr.sumEquiv := proxy_equiv% Instr

theorem card_instr : Nat.card Instr = 2833 := by
  have imm : Nat.card (BitVec 3) = 8 := (Nat.card_congr BitVec.equivFin.toEquiv).trans (Nat.card_fin _)
  have reg : Nat.card Reg = 8 := Nat.card_fin _
  rw [← Nat.card_congr Instr.sumEquiv]
  simp only [Nat.card_sum, Nat.card_sigma, Nat.card_unique, imm, reg, Finset.sum_const, Finset.card_univ, Fintype.card_fin, smul_eq_mul]

/-- The table words that decode are the encodings of the commands. -/
theorem isSome_decodeTableWord_iff {n : Nat} (h : n < 2 ^ 16) :
    (decodeTableWord 16 n).isSome = true ↔ ∃ i, (encode i).toNat = n := by
  have word (i : Instr) : encode i = BitVec.ofNat 16 n ↔ (encode i).toNat = n := by
    rw [← BitVec.toNat_inj, BitVec.toNat_ofNat, Nat.mod_eq_of_lt h]
  rw [decodeTableWord, Nat.mod_eq_of_lt h]
  simp only [← word, ← decode_eq_ok_iff]
  cases decode (BitVec.ofNat 16 n) <;> simp [Except.toOption]

/-- Settles O6: encoding is a bijection from the commands to the legal words. -/
theorem legalWordCount : Obligations.LegalWordCount := by
  unfold Obligations.LegalWordCount
  have injective : Function.Injective fun i => (encode i).toNat := fun i j h => encode_injective (BitVec.eq_of_toNat_eq h)
  have legal : ((Finset.range 65536).filter fun n => (decodeTableWord 16 n).isSome = true : Set Nat) =
      Set.range fun i => (encode i).toNat := by
    ext n
    rw [Finset.mem_coe, Finset.mem_filter, Finset.mem_range, Set.mem_range]
    constructor
    · rintro ⟨lt, some⟩
      exact (isSome_decodeTableWord_iff lt).1 some
    · rintro ⟨i, rfl⟩
      exact ⟨(encode i).isLt, (isSome_decodeTableWord_iff (encode i).isLt).2 ⟨i, rfl⟩⟩
  calc (List.range 65536).countP (fun n => (decodeTableWord 16 n).isSome)
      = Nat.count (fun n => (decodeTableWord 16 n).isSome = true) 65536 := by simp [Nat.count]
    _ = (Set.range fun i => (encode i).toNat).ncard := by
      rw [Nat.count_eq_card_filter_range, ← Set.ncard_coe_finset, legal]
    _ = 2833 := by rw [Set.ncard_range_of_injective injective, card_instr]

end Sys2Proof

/-! # Proofs of 30_encoding.md: the data operand and the assembler

What the assembler does with a line is said once per form of line: when it accepts the line, and what it then emits. -/

namespace Sys2Proof.Machine

/-! ### The data operand (R86) -/

/-- The state with other latched data. -/
def State.withData (s : State) (d : Word) : State := { s with cmdl := { s.cmdl with data := d } }

theorem effect_withData {i : Instr} (h : i.opcode ≠ .ld) (s : State) (d : Word) :
    effect i (s.withData d) = (effect i s).withData d := by
  cases i with
  | ld => exact absurd rfl h
  | _ => rfl

/-- Settles O28: the effect of a command but LD commutes with a change of the latched data, as ILLEGAL does, and LD retires the data
mod P. -/
theorem cmdDataReadOnlyByLd : Obligations.CmdDataReadOnlyByLd := by
  unfold Obligations.CmdDataReadOnlyByLd
  refine ⟨fun i s d h => ⟨_, exec_eq_effect i s, ?_⟩, fun s d illegal => ⟨_, complete_of_illegal illegal, ?_⟩,
    fun rd s d => ⟨_, exec_eq_effect (.ld rd) _, ?_⟩⟩
  · exact (exec_eq_effect i (s.withData d)).trans (congrArg _ (effect_withData h s d))
  · exact complete_of_illegal (s := s.withData d) illegal
  · rw [effect_of_dest rfl, reg_retire, if_pos rfl]
    exact toNat_ofNat_of_lt_P (Nat.mod_lt _ P_pos)

/-! ### What an operand place reads (R90) -/

/-- An integer that is read as a word of `w` bits is the word's number. -/
theorem ite_ofInt_eq_some_iff {w : Nat} {z : Int} {v : BitVec w} :
    (if 0 ≤ z ∧ z < 2 ^ w then some (BitVec.ofInt w z) else none) = some v ↔ z = v.toNat := by
  have number : 0 ≤ (v.toNat : Int) ∧ (v.toNat : Int) < 2 ^ w := ⟨Int.natCast_nonneg _, by exact_mod_cast v.isLt⟩
  rw [Option.ite_none_right_eq_some]
  constructor
  · rintro ⟨⟨nonneg, lt⟩, read⟩
    obtain ⟨n, rfl⟩ := Int.eq_ofNat_of_zero_le nonneg
    rw [← Option.some.inj read, BitVec.ofInt_natCast, BitVec.toNat_ofNat, Nat.mod_eq_of_lt (by exact_mod_cast lt)]
  · rintro rfl
    exact ⟨number, by simp⟩

theorem asReg_eq_some_iff {o : Operand} {r : Reg} : o.asReg = some r ↔ o = .reg r := by
  cases o with
  | reg n =>
    have number : n = r.val → n < 8 := fun h => h ▸ r.isLt
    simpa [Operand.asReg, Fin.ext_iff] using number
  | int | value => simp [Operand.asReg]

theorem asImm_eq_some_iff {o : Operand} {i : BitVec 3} : o.asImm = some i ↔ o = .int i.toNat := by
  cases o with
  | int z => exact (ite_ofInt_eq_some_iff (w := 3)).trans (by rw [Operand.int.injEq])
  | reg | value => simp [Operand.asImm]

theorem asWord_eq_some_iff {o : Operand} {w : CmdWord} : o.asWord = some w ↔ o = .int w.toNat := by
  cases o with
  | int z => exact (ite_ofInt_eq_some_iff (w := 16)).trans (by rw [Operand.int.injEq])
  | reg | value => simp [Operand.asWord]

theorem asValue_eq_some_iff {o : Operand} {v : Word} : o.asValue = some v ↔ ∃ e, e.value = (v.toNat : Int) ∧ o = .value e := by
  cases o with
  | value e => exact ite_ofInt_eq_some_iff.trans (by simp)
  | reg | int => simp [Operand.asValue]

/-! ### What the assembler makes of a line, form by form (R90, R91) -/

/-- A line of one register: what `assemble` is on ST, CLR, ONE and TST. -/
def regLine1 (f : Reg → Instr) : List Operand → Option (List Command)
  | [d] => do pure [plain (f (← d.asReg))]
  | _ => none

/-- A line of two registers: what `assemble` is on NEG, INV, SQRT, SQR, DBL and MOV. -/
def regLine2 (f : Reg → Reg → List Instr) : List Operand → Option (List Command)
  | [d, a] => do pure ((f (← d.asReg) (← a.asReg)).map plain)
  | _ => none

/-- A line of three registers: what `assemble` is on ADD, SUB, MUL, MONT, EXP and CMPEQ. -/
def regLine3 (f : Reg → Reg → Reg → Instr) : List Operand → Option (List Command)
  | [d, a, b] => do pure [plain (f (← d.asReg) (← a.asReg) (← b.asReg))]
  | _ => none

section

variable {ops : List Operand} {cs : List Command}

theorem regLine1_eq_some_iff {f : Reg → Instr} : regLine1 f ops = some cs ↔ ∃ d : Reg, ops = [.reg d] ∧ [plain (f d)] = cs := by
  match ops with
  | [d] => simp [regLine1, Option.bind_eq_some_iff, asReg_eq_some_iff]
  | [] | _ :: _ :: _ => simp [regLine1]

theorem regLine2_eq_some_iff {f : Reg → Reg → List Instr} :
    regLine2 f ops = some cs ↔ ∃ d a : Reg, ops = [.reg d, .reg a] ∧ (f d a).map plain = cs := by
  match ops with
  | [d, a] => simp [regLine2, Option.bind_eq_some_iff, asReg_eq_some_iff, and_assoc]
  | [] | [_] | _ :: _ :: _ :: _ => simp [regLine2]

theorem regLine3_eq_some_iff {f : Reg → Reg → Reg → Instr} :
    regLine3 f ops = some cs ↔ ∃ d a b : Reg, ops = [.reg d, .reg a, .reg b] ∧ [plain (f d a b)] = cs := by
  match ops with
  | [d, a, b] => simp [regLine3, Option.bind_eq_some_iff, asReg_eq_some_iff, and_assoc]
  | [] | [_] | [_, _] | _ :: _ :: _ :: _ :: _ => simp [regLine3]

theorem assemble_nop_eq_some_iff : assemble .nop ops = some cs ↔ ops = [] ∧ [plain .nop] = cs := by
  simp [assemble]

theorem assemble_ldi_eq_some_iff :
    assemble .ldi ops = some cs ↔ ∃ (d : Reg) (i : BitVec 3), ops = [.reg d, .int i.toNat] ∧ [plain (.ldi d i)] = cs := by
  match ops with
  | [d, v] => simp [assemble, Option.bind_eq_some_iff, asReg_eq_some_iff, asImm_eq_some_iff, and_assoc]
  | [] | [_] | _ :: _ :: _ :: _ => simp [assemble]

theorem assemble_ld_eq_some_iff :
    assemble .ld ops = some cs ↔
      ∃ (d : Reg) (v : Word), (∃ e : Expr, e.value = (v.toNat : Int) ∧ ops = [.reg d, .value e]) ∧
        [{ word := encode (.ld d), data := v }] = cs := by
  match ops with
  | [d, v] => simp [assemble, Option.bind_eq_some_iff, asReg_eq_some_iff, asValue_eq_some_iff, and_left_comm (b := d = _), and_assoc]
  | [] | [_] | _ :: _ :: _ :: _ => simp [assemble]

theorem assemble_word_eq_some_iff :
    assemble .word ops = some cs ↔
      (∃ w : CmdWord, ops = [.int w.toNat] ∧ [{ word := w, data := 0 }] = cs) ∨
        ∃ (w : CmdWord) (v : Word), (∃ e : Expr, e.value = (v.toNat : Int) ∧ ops = [.int w.toNat, .value e]) ∧
          [{ word := w, data := v }] = cs := by
  match ops with
  | [w] => simp [assemble, Option.bind_eq_some_iff, asWord_eq_some_iff]
  | [w, v] => simp [assemble, Option.bind_eq_some_iff, asWord_eq_some_iff, asValue_eq_some_iff, and_left_comm (b := w = _), and_assoc]
  | [] | _ :: _ :: _ :: _ => simp [assemble]

end

/-! ### The forms of a line -/

theorem takes_reg_iff {o : Operand} : Slot.reg.takes o ↔ ∃ r : Reg, o = .reg r := by
  simp only [← exists_asReg_iff, asReg_eq_some_iff]

theorem takes_imm_iff {o : Operand} : Slot.imm.takes o ↔ ∃ i : BitVec 3, o = .int i.toNat := by
  simp only [← exists_asImm_iff, asImm_eq_some_iff]

theorem takes_word_iff {o : Operand} : Slot.word.takes o ↔ ∃ w : CmdWord, o = .int w.toNat := by
  simp only [← exists_asWord_iff, asWord_eq_some_iff]

theorem takes_value_iff {o : Operand} : Slot.value.takes o ↔ ∃ (v : Word) (e : Expr), e.value = (v.toNat : Int) ∧ o = .value e := by
  simp only [← exists_asValue_iff, asValue_eq_some_iff]

/-- A line's operands fit a form of its mnemonic. -/
def Mnemonic.Accepts (m : Mnemonic) (ops : List Operand) : Prop := ∃ form ∈ m.forms, List.Forall₂ Slot.takes form ops

theorem exists_regLine1_iff (f : Reg → Instr) (ops : List Operand) :
    (∃ cs, regLine1 f ops = some cs) ↔ ∃ form ∈ [[Slot.reg]], List.Forall₂ Slot.takes form ops := by
  simp [regLine1_eq_some_iff, List.forall₂_cons_left_iff, takes_reg_iff]

theorem exists_regLine2_iff (f : Reg → Reg → List Instr) (ops : List Operand) :
    (∃ cs, regLine2 f ops = some cs) ↔ ∃ form ∈ [[Slot.reg, .reg]], List.Forall₂ Slot.takes form ops := by
  simp [regLine2_eq_some_iff, List.forall₂_cons_left_iff, takes_reg_iff]

theorem exists_regLine3_iff (f : Reg → Reg → Reg → Instr) (ops : List Operand) :
    (∃ cs, regLine3 f ops = some cs) ↔ ∃ form ∈ [[Slot.reg, .reg, .reg]], List.Forall₂ Slot.takes form ops := by
  simp [regLine3_eq_some_iff, List.forall₂_cons_left_iff, takes_reg_iff]

/-- A line is accepted exactly when its operands fit a form of its mnemonic. -/
theorem exists_assemble_iff (m : Mnemonic) (ops : List Operand) : (∃ cs, assemble m ops = some cs) ↔ m.Accepts ops := by
  cases m with
  | nop => simp [assemble_nop_eq_some_iff, Mnemonic.Accepts, Mnemonic.forms]
  | ld =>
    simp [assemble_ld_eq_some_iff, Mnemonic.Accepts, Mnemonic.forms, List.forall₂_cons_left_iff, takes_reg_iff, takes_value_iff]
  | ldi =>
    simp [assemble_ldi_eq_some_iff, Mnemonic.Accepts, Mnemonic.forms, List.forall₂_cons_left_iff, takes_reg_iff, takes_imm_iff]
  | word =>
    simp [assemble_word_eq_some_iff, Mnemonic.Accepts, Mnemonic.forms, List.forall₂_cons_left_iff, takes_word_iff, takes_value_iff,
      exists_or]
  | st | clr | one | tst => exact exists_regLine1_iff _ ops
  | neg | inv | sqrt | sqr | dbl | mov => exact exists_regLine2_iff _ ops
  | add | sub | mul | mont | exp | cmpeq => exact exists_regLine3_iff _ ops

theorem assemble_eq_none_iff (m : Mnemonic) (ops : List Operand) : assemble m ops = none ↔ ¬m.Accepts ops := by
  rw [← exists_assemble_iff]
  cases assemble m ops <;> simp

/-- A line other than LD's and a raw word gives commands with `cmd_data` 0. -/
theorem exists_map_plain_of_assemble {m : Mnemonic} {ops : List Operand} {cs : List Command} (ld : m ≠ .ld) (word : m ≠ .word)
    (h : assemble m ops = some cs) : ∃ is : List Instr, is.map plain = cs := by
  cases m with
  | ld => exact absurd rfl ld
  | word => exact absurd rfl word
  | nop =>
    obtain ⟨-, cs_eq⟩ := assemble_nop_eq_some_iff.1 h
    exact ⟨[_], cs_eq⟩
  | ldi =>
    obtain ⟨d, i, -, cs_eq⟩ := assemble_ldi_eq_some_iff.1 h
    exact ⟨[_], cs_eq⟩
  | st | clr | one | tst =>
    obtain ⟨d, -, cs_eq⟩ := regLine1_eq_some_iff.1 h
    exact ⟨[_], cs_eq⟩
  | neg | inv | sqrt | sqr | dbl | mov =>
    obtain ⟨d, a, -, cs_eq⟩ := regLine2_eq_some_iff.1 h
    exact ⟨_, cs_eq⟩
  | add | sub | mul | mont | exp | cmpeq =>
    obtain ⟨d, a, b, -, cs_eq⟩ := regLine3_eq_some_iff.1 h
    exact ⟨[_], cs_eq⟩

theorem legal_of_assemble {m : Mnemonic} {ops : List Operand} {cs : List Command} (word : m ≠ .word) (h : assemble m ops = some cs) :
    ∀ c ∈ cs, (∃ i, decode c.word = .ok i) ∧ (m ≠ .ld → c.data = 0) := by
  intro c hc
  by_cases ld : m = .ld
  · subst ld
    obtain ⟨d, v, -, rfl⟩ := assemble_ld_eq_some_iff.1 h
    obtain rfl := List.mem_singleton.1 hc
    exact ⟨⟨_, decode_encode _⟩, fun ne => absurd rfl ne⟩
  · obtain ⟨is, rfl⟩ := exists_map_plain_of_assemble ld word h
    obtain ⟨i, -, rfl⟩ := List.mem_map.1 hc
    exact ⟨⟨i, decode_encode i⟩, fun _ => rfl⟩

/-! ### Operands out of range -/

/-- The operands that a mnemonic can take at any place. -/
def Mnemonic.InRange (m : Mnemonic) : Operand → Prop
  | .reg n => n < 8
  | .int z => 0 ≤ z ∧ z < if m = .word then 65536 else 8
  | .value e => 0 ≤ e.value ∧ e.value < 2 ^ 256

theorem word_of_word_mem_form {m : Mnemonic} {form : List Slot} (hform : form ∈ m.forms) (hslot : .word ∈ form) : m = .word := by
  revert form
  cases m <;> decide

theorem inRange_of_takes {m : Mnemonic} {form : List Slot} (hform : form ∈ m.forms) {slot : Slot} (hslot : slot ∈ form) {o : Operand}
    (h : slot.takes o) : m.InRange o := by
  cases slot with
  | reg =>
    obtain ⟨r, rfl⟩ := takes_reg_iff.1 h
    exact r.isLt
  | imm =>
    obtain ⟨i, rfl⟩ := takes_imm_iff.1 h
    have := i.isLt
    refine ⟨Int.natCast_nonneg _, ?_⟩
    split <;> omega
  | word =>
    obtain ⟨w, rfl⟩ := takes_word_iff.1 h
    have := w.isLt
    refine ⟨Int.natCast_nonneg _, ?_⟩
    rw [if_pos (word_of_word_mem_form hform hslot)]
    omega
  | value =>
    obtain ⟨v, e, -, rfl⟩ := takes_value_iff.1 h
    exact h

theorem exists_slot_of_mem {form : List Slot} {ops : List Operand} (h : List.Forall₂ Slot.takes form ops) :
    ∀ o ∈ ops, ∃ slot ∈ form, slot.takes o := by
  induction h with
  | nil => simp
  | cons takes _ ih =>
    intro o ho
    obtain rfl | ho := List.mem_cons.1 ho
    · exact ⟨_, List.mem_cons_self, takes⟩
    · obtain ⟨slot, hslot, takes⟩ := ih o ho
      exact ⟨slot, List.mem_cons_of_mem _ hslot, takes⟩

theorem inRange_of_accepts {m : Mnemonic} {ops : List Operand} (h : m.Accepts ops) : ∀ o ∈ ops, m.InRange o := by
  obtain ⟨form, hform, fits⟩ := h
  intro o ho
  obtain ⟨slot, hslot, takes⟩ := exists_slot_of_mem fits o ho
  exact inRange_of_takes hform hslot takes

theorem exists_word_of_range {z : Int} (nonneg : 0 ≤ z) (lt : z < 2 ^ 256) : ∃ v : Word, z = v.toNat :=
  ⟨BitVec.ofInt 256 z, ite_ofInt_eq_some_iff.1 (if_pos ⟨nonneg, lt⟩)⟩

/-- Settles O55: acceptance is `exists_assemble_iff`, a form of another length or an operand out of range fits nowhere, and what is emitted
is read off form by form. -/
theorem assemblerEmitsLegalWords : Obligations.AssemblerEmitsLegalWords := by
  unfold Obligations.AssemblerEmitsLegalWords
  refine ⟨exists_assemble_iff, fun m ops count => ?_, fun m ops out => ?_, fun m ops cs word h => legal_of_assemble word h,
    fun d e nonneg lt => ?_, fun w e => ⟨?_, fun nonneg lt => ?_⟩⟩
  · rw [assemble_eq_none_iff]
    rintro ⟨form, hform, fits⟩
    exact count form hform fits.length_eq.symm
  · rw [assemble_eq_none_iff]
    intro accepts
    have inRange := inRange_of_accepts accepts
    obtain ⟨n, hn, mem⟩ | ⟨z, hz, mem⟩ | ⟨e, he, mem⟩ := out
    · exact absurd (inRange _ mem) (Nat.not_lt.2 hn)
    · obtain ⟨nonneg, lt⟩ := inRange _ mem
      omega
    · obtain ⟨nonneg, lt⟩ := inRange _ mem
      omega
  · obtain ⟨v, hv⟩ := exists_word_of_range nonneg lt
    exact ⟨v, hv.symm, assemble_ld_eq_some_iff.2 ⟨d, v, ⟨e, hv, rfl⟩, rfl⟩⟩
  · exact assemble_word_eq_some_iff.2 (.inl ⟨w, rfl, rfl⟩)
  · obtain ⟨v, hv⟩ := exists_word_of_range nonneg lt
    exact ⟨v, hv.symm, assemble_word_eq_some_iff.2 (.inr ⟨w, v, ⟨e, hv, rfl⟩, rfl⟩)⟩

/-! ### The pseudo-instructions (R91) -/

theorem negP_negP {a : Word} (h : a.toNat < P) : negP (negP a) = a :=
  eq_of_residue_eq (negP_lt _) h (by simp)

theorem residue_zero : residue 0 = 0 := by simp [residue]

theorem subP_eq_zero_iff {a b : Word} (ha : a.toNat < P) (hb : b.toNat < P) : subP a b = 0 ↔ a = b := by
  constructor
  · intro h
    refine eq_of_residue_eq ha hb (sub_eq_zero.1 ?_)
    rw [← residue_subP, h, residue_zero]
  · rintro rfl
    exact eq_of_residue_eq (subP_lt _ _) P_pos (by rw [residue_subP, sub_self, residue_zero])

/-- Settles O54: the expansions are the lines of registers; negation is its own inverse, a difference is 0 only of equal words, and ST
responds with its register. -/
theorem pseudoInstructions : Obligations.PseudoInstructions := by
  unfold Obligations.PseudoInstructions
  refine ⟨fun d a b => ⟨?_, ?_, ?_, ?_, ?_, ?_, ?_⟩, fun d a s canonical => ?_, fun d a b s canonical => ?_, fun a s => ?_⟩
  · exact regLine1_eq_some_iff.2 ⟨d, rfl, rfl⟩
  · exact regLine1_eq_some_iff.2 ⟨d, rfl, rfl⟩
  · exact regLine2_eq_some_iff.2 ⟨d, a, rfl, rfl⟩
  · exact regLine2_eq_some_iff.2 ⟨d, a, rfl, rfl⟩
  · exact regLine1_eq_some_iff.2 ⟨a, rfl, rfl⟩
  · exact regLine2_eq_some_iff.2 ⟨d, a, rfl, rfl⟩
  · exact regLine3_eq_some_iff.2 ⟨d, a, b, rfl, rfl⟩
  · refine ⟨_, _, exec_eq_effect _ _, exec_eq_effect _ _, ?_, fun r hr => ?_⟩
    · simp [effect_of_dest (i := .neg _ _) rfl, reg_retire, resultOf, negP_negP (canonical a)]
    · have other : some d ≠ some r := fun h => hr (Option.some.inj h).symm
      exact (reg_effect_of_ne (i := .neg d d) other _).trans (reg_effect_of_ne (i := .neg d a) other s)
  · refine ⟨_, exec_eq_effect _ _, ?_⟩
    rw [rsp_effect (by simp), z_flagsOf]
    exact beq_iff_eq.trans (subP_eq_zero_iff (canonical a) (canonical b))
  · refine ⟨_, exec_eq_effect _ _, ?_⟩
    rw [rsp_effect (by simp), z_flagsOf, odd_flagsOf, oddFlag_eq, decide_eq_true_iff]
    exact ⟨beq_iff_eq, Iff.rfl⟩

/-! ### Cutting a line of text into its pieces (R90) -/

/-- A piece of a line through which the assembler makes no cut: it holds no blank, comma or semicolon. -/
def Whole (w : List Char) : Prop := w ≠ [] ∧ ∀ c ∈ w, isBlank c = false ∧ c ≠ ',' ∧ c ≠ ';'

/-- A text from which the assembler cuts nothing off: it neither begins nor ends with a blank and holds no comment. -/
structure Tight (cs : List Char) : Prop where
  ne_nil : cs ≠ []
  first : ∀ c ∈ cs.head?, isBlank c = false
  last : ∀ c ∈ cs.getLast?, isBlank c = false
  code : ∀ c ∈ cs, c ≠ ';'

theorem Whole.not_blank {w : List Char} (h : Whole w) : ∀ c ∈ w, isBlank c = false := by
  intro c hc
  obtain ⟨blank, -, -⟩ := h.2 c hc
  exact blank

theorem Whole.no_comma {w : List Char} (h : Whole w) : ∀ c ∈ w, c ≠ ',' := by
  intro c hc
  obtain ⟨-, comma, -⟩ := h.2 c hc
  exact comma

theorem Whole.no_semicolon {w : List Char} (h : Whole w) : ∀ c ∈ w, c ≠ ';' := by
  intro c hc
  obtain ⟨-, -, semicolon⟩ := h.2 c hc
  exact semicolon

theorem Whole.tight {w : List Char} (h : Whole w) : Tight w where
  ne_nil := h.1
  first c hc := h.not_blank c (List.mem_of_mem_head? hc)
  last c hc := h.not_blank c (List.mem_of_mem_getLast? hc)
  code := h.no_semicolon

theorem Tight.append {u v : List Char} (hu : Tight u) (hv : Tight v) {between : List Char} (code : ∀ c ∈ between, c ≠ ';') :
    Tight (u ++ between ++ v) where
  ne_nil := by simp [hu.ne_nil]
  first := by
    rw [List.append_assoc, List.head?_append_of_ne_nil _ hu.ne_nil]
    exact hu.first
  last := by
    rw [List.getLast?_append_of_ne_nil _ hv.ne_nil]
    exact hv.last
  code := List.forall_mem_append.2 ⟨List.forall_mem_append.2 ⟨hu.code, code⟩, hv.code⟩

theorem dropWhile_isBlank_eq_self {cs : List Char} (h : ∀ c ∈ cs.head?, isBlank c = false) : cs.dropWhile isBlank = cs := by
  cases cs with
  | nil => rfl
  | cons c cs => exact List.dropWhile_cons_of_neg (by simp [h c rfl])

theorem trim_eq_self {cs : List Char} (h : Tight cs) : trim cs = cs := by
  rw [trim, dropWhile_isBlank_eq_self h.first, dropWhile_isBlank_eq_self (by simpa using h.last), List.reverse_reverse]

theorem trim_cons_blank {c : Char} (h : isBlank c = true) (cs : List Char) : trim (c :: cs) = trim cs := by
  rw [trim, List.dropWhile_cons_of_pos h, ← trim]

theorem splitCommas_of_no_comma {w : List Char} (h : ∀ c ∈ w, c ≠ ',') : splitCommas w = [w] := by
  induction w with
  | nil => rfl
  | cons c w ih =>
    obtain ⟨hc, hw⟩ := List.forall_mem_cons.1 h
    simp [splitCommas, hc, ih hw]

theorem splitCommas_append_comma {w : List Char} (h : ∀ c ∈ w, c ≠ ',') (rest : List Char) :
    splitCommas (w ++ ',' :: rest) = w :: splitCommas rest := by
  induction w with
  | nil => simp [splitCommas]
  | cons c w ih =>
    obtain ⟨hc, hw⟩ := List.forall_mem_cons.1 h
    simp [splitCommas, hc, ih hw]

/-- The texts of operands as R90 writes them, with a comma and a blank between. -/
abbrev joined (ws : List (List Char)) : List Char := [',', ' '].intercalate ws

theorem tight_joined {w : List Char} {ws : List (List Char)} (hw : Whole w) (hws : ∀ w ∈ ws, Whole w) : Tight (joined (w :: ws)) := by
  induction ws generalizing w with
  | nil => simpa using hw.tight
  | cons w' ws ih =>
    obtain ⟨hw', hws⟩ := List.forall_mem_cons.1 hws
    rw [joined, List.intercalate_cons_cons]
    exact hw.tight.append (ih hw' hws) (by simp)

/-- After the first, each operand's text comes back with the blank that stands before it. -/
theorem splitCommas_joined {w : List Char} {ws : List (List Char)} (hw : Whole w) (hws : ∀ w ∈ ws, Whole w) :
    splitCommas (joined (w :: ws)) = w :: ws.map (' ' :: ·) := by
  induction ws generalizing w with
  | nil => simpa using splitCommas_of_no_comma hw.no_comma
  | cons w' ws ih =>
    obtain ⟨hw', hws⟩ := List.forall_mem_cons.1 hws
    have blank : splitCommas (' ' :: joined (w' :: ws)) = (' ' :: w') :: ws.map (' ' :: ·) := by
      simp [splitCommas, ih hw' hws]
    calc splitCommas (joined (w :: w' :: ws))
        = splitCommas (w ++ ',' :: ' ' :: joined (w' :: ws)) := by simp [List.intercalate_cons_cons]
      _ = w :: splitCommas (' ' :: joined (w' :: ws)) := splitCommas_append_comma hw.no_comma _
      _ = w :: (w' :: ws).map (' ' :: ·) := by rw [blank, List.map_cons]

theorem readOperand_cons_blank (w : List Char) : readOperand (' ' :: w) = readOperand w := by
  rw [readOperand, trim_cons_blank rfl, ← readOperand]

theorem mapM_readOperand_joined {w : List Char} {ws : List (List Char)} (hw : Whole w) (hws : ∀ w ∈ ws, Whole w) :
    (splitCommas (joined (w :: ws))).mapM readOperand = (w :: ws).mapM readOperand := by
  have blank : (readOperand ∘ fun w => ' ' :: w) = readOperand := funext readOperand_cons_blank
  rw [splitCommas_joined hw hws, List.mapM_cons, List.mapM_cons, List.mapM_map, blank]

/-- A line of a mnemonic and operands is cut into them. -/
theorem assembleLine_joined {m : Mnemonic} {name w : List Char} {ws : List (List Char)} (read : readMnemonic name = some m)
    (hname : Whole name) (hw : Whole w) (hws : ∀ w ∈ ws, Whole w) :
    assembleLine (name ++ [' '] ++ joined (w :: ws)) = (do assemble m (← (w :: ws).mapM readOperand)) := by
  have rest := tight_joined hw hws
  have line := hname.tight.append rest (between := [' ']) (by simp)
  have code : (name ++ [' '] ++ joined (w :: ws)).takeWhile (· != ';') = name ++ [' '] ++ joined (w :: ws) :=
    List.takeWhile_eq_self_iff.2 fun c hc => by simpa using line.code c hc
  have nonblank : ∀ c ∈ name, (!isBlank c) = true := fun c hc => by simp [hname.not_blank c hc]
  have front : (name ++ [' '] ++ joined (w :: ws)).takeWhile (fun c => !isBlank c) = name := by
    rw [List.append_assoc, List.takeWhile_append_of_pos nonblank]
    simp [isBlank]
  have back : trim ((name ++ [' '] ++ joined (w :: ws)).dropWhile fun c => !isBlank c) = joined (w :: ws) := by
    rw [List.append_assoc, List.dropWhile_append_of_pos nonblank]
    exact (trim_cons_blank rfl _).trans (trim_eq_self rest)
  rw [assembleLine, code, trim_eq_self line]
  split
  · exact absurd ‹_› line.ne_nil
  rw [front, back, read, Option.bind_eq_bind, Option.bind_some]
  split
  · exact absurd ‹_› rest.ne_nil
  rw [mapM_readOperand_joined hw hws]

/-! ### A command's own line of text -/

/-- The mnemonic of an opcode. -/
def mnemonicOf : Opcode → Mnemonic
  | .nop => .nop
  | .ld => .ld
  | .st => .st
  | .ldi => .ldi
  | .add => .add
  | .sub => .sub
  | .neg => .neg
  | .mul => .mul
  | .mont => .mont
  | .exp => .exp
  | .inv => .inv
  | .sqrt => .sqrt

theorem readMnemonic_opcodeText (o : Opcode) : readMnemonic (opcodeText o) = some (mnemonicOf o) := by
  cases o <;> rfl

theorem whole_opcodeText (o : Opcode) : Whole (opcodeText o) := by
  cases o <;> simp [Whole, opcodeText, isBlank]

/-- The digit of a register's or an immediate's number. -/
def digitChar (n : Nat) : Char := Char.ofNat ('0'.toNat + n)

theorem whole_digitChar (n : Fin 8) : Whole [digitChar n] := by
  have uncut : isBlank (digitChar n) = false ∧ digitChar n ≠ ',' ∧ digitChar n ≠ ';' := by
    revert n
    decide
  simpa [Whole] using uncut

/-- A letter that is no blank, comma or semicolon may stand before a piece. -/
theorem Whole.cons {w : List Char} (h : Whole w) {c : Char} (hc : isBlank c = false ∧ c ≠ ',' ∧ c ≠ ';') : Whole (c :: w) :=
  ⟨List.cons_ne_nil c w, List.forall_mem_cons.2 ⟨hc, h.2⟩⟩

theorem whole_regText (r : Reg) : Whole (regText r) := (whole_digitChar r).cons (by decide)

theorem readOperand_regText (r : Reg) : readOperand (regText r) = some (.reg r) := by
  revert r
  decide

theorem readOperand_digitChar (n : Fin 8) : readOperand [digitChar n] = some (.int n.val) := by
  revert n
  decide

theorem regsText_eq_joined (rs : List Reg) : regsText rs = joined (rs.map regText) := by
  match rs with
  | [] => rfl
  | [r] => simp [regsText]
  | r :: r' :: rs =>
    have tail : regsText (r' :: rs) = joined (regText r' :: rs.map regText) := regsText_eq_joined (r' :: rs)
    simp [regsText, tail, List.intercalate_cons_cons]

theorem mapM_readOperand_regText (rs : List Reg) : (rs.map regText).mapM readOperand = some (rs.map fun r : Reg => Operand.reg r) := by
  induction rs with
  | nil => rfl
  | cons r rs ih =>
    rw [List.map_cons, List.mapM_cons, readOperand_regText, ih]
    rfl

theorem assembleLine_regs (o : Opcode) (r : Reg) (rs : List Reg) :
    assembleLine (opcodeText o ++ [' '] ++ regsText (r :: rs)) = assemble (mnemonicOf o) ((r :: rs).map fun r : Reg => Operand.reg r) := by
  rw [regsText_eq_joined, List.map_cons, assembleLine_joined (readMnemonic_opcodeText o) (whole_opcodeText o) (whole_regText r)
    (List.forall_mem_map.2 fun r _ => whole_regText r), ← List.map_cons, mapM_readOperand_regText]
  rfl

theorem assembleLine_reg_then (o : Opcode) (r : Reg) {w : List Char} (hw : Whole w) {x : Operand} (read : readOperand w = some x) :
    assembleLine (opcodeText o ++ [' '] ++ joined [regText r, w]) = assemble (mnemonicOf o) [.reg r, x] := by
  rw [assembleLine_joined (readMnemonic_opcodeText o) (whole_opcodeText o) (whole_regText r) (by simpa using hw)]
  simp [readOperand_regText, read]

theorem assembleLine_lineText (v : List Char) {i : Instr} (h : i.opcode ≠ .ld) : assembleLine (lineText v i) = some [plain i] := by
  cases i with
  | nop => rfl
  | ld => exact absurd rfl h
  | st a => exact (assembleLine_regs _ a []).trans (regLine1_eq_some_iff.2 ⟨a, rfl, rfl⟩)
  | ldi d imm =>
    exact (assembleLine_reg_then _ d (whole_digitChar imm.toFin) (readOperand_digitChar imm.toFin)).trans
      (assemble_ldi_eq_some_iff.2 ⟨d, imm, rfl, rfl⟩)
  | neg d a | inv d a | sqrt d a => exact (assembleLine_regs _ d [a]).trans (regLine2_eq_some_iff.2 ⟨d, a, rfl, rfl⟩)
  | add d a b | sub d a b | mul d a b | mont d a b | exp d a b =>
    exact (assembleLine_regs _ d [a, b]).trans (regLine3_eq_some_iff.2 ⟨d, a, b, rfl, rfl⟩)

theorem assembleLine_ld {rd : Reg} {v : List Char} {e : Expr} (hv : Whole v) (read : readOperand ('=' :: v) = some (.value e)) :
    assembleLine (lineText v (.ld rd)) = assemble .ld [.reg rd, .value e] := by
  have text : lineText v (.ld rd) = opcodeText .ld ++ [' '] ++ joined [regText rd, '=' :: v] := by
    simp [lineText, operandText, Instr.opcode]
  rw [text]
  exact assembleLine_reg_then .ld rd (hv.cons (by decide)) read

/-- A text of LD's value is given on `cmd_data` where it is in range. -/
theorem assembleLine_ld_of_value {rd : Reg} {v : List Char} {e : Expr} {n : Nat} (hv : Whole v)
    (read : readOperand ('=' :: v) = some (.value e)) (value : e.value = n) (lt : n < 2 ^ 256) :
    assembleLine (lineText v (.ld rd)) = some [{ word := encode (.ld rd), data := BitVec.ofNat 256 n }] := by
  have number : (BitVec.ofNat 256 n).toNat = n := by rw [BitVec.toNat_ofNat, Nat.mod_eq_of_lt lt]
  exact (assembleLine_ld hv read).trans (assemble_ld_eq_some_iff.2 ⟨rd, _, ⟨e, by rw [value, number], rfl⟩, rfl⟩)

/-- Settles O58: a line is cut back into its mnemonic and operands, which fit the mnemonic's form; each text of a value is read as its
expression, and the last one's value is out of range. -/
theorem commandTextAssembles : Obligations.CommandTextAssembles := by
  unfold Obligations.CommandTextAssembles
  refine ⟨fun i v h => assembleLine_lineText v h, fun rd => ⟨?_, ?_, ?_, ?_, ?_, ?_⟩⟩
  · exact assembleLine_ld_of_value (e := .lit 10) (by simp [Whole, isBlank]) (by decide) (by decide) (by decide)
  · exact assembleLine_ld_of_value (e := .lit 511) (by simp [Whole, isBlank]) (by decide) (by decide) (by decide)
  · exact assembleLine_ld_of_value (e := .sub (.name .p) (.lit 2)) (by simp [Whole, isBlank]) (by decide) (by decide) (by decide)
  · exact assembleLine_ld_of_value (e := .sub (.pow (.lit 2) 256) (.lit 1)) (by simp [Whole, isBlank]) (by decide) (by decide)
      (by decide)
  · exact assembleLine_ld_of_value (e := .name .r2) (by simp [Whole, isBlank]) (by decide) (by decide) (by decide)
  · refine (assembleLine_ld (e := .pow (.lit 2) 256) (by simp [Whole, isBlank]) (by decide)).trans ?_
    rw [assemble_eq_none_iff]
    intro accepts
    obtain ⟨-, lt⟩ := inRange_of_accepts accepts (.value (.pow (.lit 2) 256)) (by simp)
    exact absurd lt (by decide)

end Sys2Proof.Machine

/-! # Proofs of 40_transfer.md: NOP, LD, ST and LDI

What every command's statement asks for is said once: its word selects its row of the opcode map, and a command with a destination
produces its result. -/

namespace Sys2Proof.Machine

/-! ### The word and the result of any command -/

/-- The word of a command selects the row of its opcode (R83). -/
theorem encode_and_mask (i : Instr) : encode i &&& i.opcode.mask = i.opcode.pattern :=
  (decode_eq_ok (decode_encode i)).2.1

/-- A command with a destination produces its result there, where the result is in range. -/
theorem produces_of_dest {i : Instr} {rd : Reg} (dest : i.dest = some rd) {s : State} {v : Nat}
    (result : (resultOf i s).toNat = v) (lt : v < P) : Produces i s rd (gepOf i s) (qrOf i s) v := by
  subst result
  refine ⟨lt, ?_⟩
  rw [exec_eq_effect, effect_of_dest dest, ← flagsOf_eq_ofNat, BitVec.ofNat_toNat, BitVec.setWidth_eq]
  rfl

/-! ### The transfer commands (R100 to R103) -/

/-- Settles O34: LD's result is the data mod P, and a 256-bit value needs one subtraction of P at most. -/
theorem ldReducesAndReportsRange : Obligations.LdReducesAndReportsRange := by
  unfold Obligations.LdReducesAndReportsRange
  intro rd s d v
  have reduced : v = d % P := condSub_eq_mod s.cmdl.data
  have lt : d % P < P := Nat.mod_lt d P_pos
  refine ⟨encode_and_mask (.ld rd), ?_, reduced⟩
  rw [reduced]
  exact produces_of_dest (i := .ld rd) rfl (toNat_ofNat_of_lt_P lt) lt

/-- Settles O36: LDI's result is the immediate's number, below 8. -/
theorem ldiLoadsTheConstant : Obligations.LdiLoadsTheConstant := by
  unfold Obligations.LdiLoadsTheConstant
  intro rd imm s
  have value : (immediate imm).toNat = imm.toNat := immediate_toNat imm
  have lt : imm.toNat < P := value ▸ immediate_lt imm
  exact ⟨encode_and_mask (.ldi rd imm), produces_of_dest (i := .ldi rd imm) rfl value lt, Nat.le_of_lt_succ imm.isLt⟩

/-- Settles O33: NOP's word is computed, and its effect is the response alone. -/
theorem nopResponds : Obligations.NopResponds := by
  unfold Obligations.NopResponds
  exact ⟨by decide, exec_eq_effect .nop⟩

/-- With neither GEP nor QR the flags are the number `2·ODD + Z`. -/
theorem flagsOf_false_false (v : Word) :
    flagsOf false false v = BitVec.ofNat 4 (v.toNat % 2 * 2 + (decide (v.toNat = 0)).toNat) := by
  simp only [flagsOf_eq_ofNat, Bool.toNat_false, Nat.zero_mul, Nat.zero_add]

/-- ST ends in the response alone, the register's value with its flags as a number. -/
theorem exec_st (rs1 : Reg) (s : State) :
    exec (.st rs1) s =
      .next (s.respond statusOk (BitVec.ofNat 4 ((s.reg rs1).toNat % 2 * 2 + (decide ((s.reg rs1).toNat = 0)).toNat))
        (s.reg rs1)) := by
  rw [← flagsOf_false_false]
  exact exec_eq_effect (.st rs1) s

/-- Settles O35: the response leaves the registers as they are, so ST answers the same from the state it ends in. -/
theorem stReturnsTheRegister : Obligations.StReturnsTheRegister := by
  unfold Obligations.StReturnsTheRegister
  intro rs1 s v t
  exact ⟨encode_and_mask (.st rs1), exec_st rs1 s, exec_st rs1 t⟩

end Sys2Proof.Machine

/-! # Proofs of 41_field_addsub.md: ADD, SUB and NEG

Each command produces its field operation's number (R120), so what is left of a rule is arithmetic of canonical operands. -/

namespace Sys2Proof.Machine

/-- The sum of canonical operands is below `2P`, so at most one subtraction reduces it (R121). -/
theorem add_mod_P_eq_ite {a b : Nat} (ha : a < P) (hb : b < P) : (a + b) % P = if a + b < P then a + b else a + b - P := by
  split
  · exact Nat.mod_eq_of_lt ‹_›
  · rw [Nat.mod_eq_sub_mod (by omega), Nat.mod_eq_of_lt (by omega)]

/-- The difference of canonical operands, with `P` added where it would be negative (R122). -/
theorem toNat_sub_emod_P_eq_ite {a b : Nat} (ha : a < P) (hb : b < P) :
    (((a : Int) - b) % (P : Int)).toNat = if b ≤ a then a - b else a + P - b := by
  split
  · rw [Int.emod_eq_of_lt (by omega) (by omega)]
    omega
  · rw [← Int.add_emod_right, Int.emod_eq_of_lt (by omega) (by omega)]
    omega

/-- For an operand up to `P` the negation is the remainder of a natural difference. -/
theorem negP_toNat_of_le {a : Word} (ha : a.toNat ≤ P) : (negP a).toNat = (P - a.toNat) % P := by
  rw [negP_toNat, ← Int.ofNat_sub ha, ← Int.natCast_emod, Int.toNat_natCast]

/-- Settles O37: the result is the sum mod P, and canonical operands need one subtraction of P at most. -/
theorem addIsFieldAddition : Obligations.AddIsFieldAddition := by
  unfold Obligations.AddIsFieldAddition
  intro rd rs1 rs2 s a b
  refine ⟨encode_and_mask (.add rd rs1 rs2), ?_, fun canonical => add_mod_P_eq_ite (canonical rs1) (canonical rs2)⟩
  exact produces_of_dest (i := .add rd rs1 rs2) rfl (addP_toNat _ _) (Nat.mod_lt _ P_pos)

/-- Settles O38: the result is the difference mod P, which is 0 only where the word of the difference is. -/
theorem subIsFieldSubtraction : Obligations.SubIsFieldSubtraction := by
  unfold Obligations.SubIsFieldSubtraction
  intro rd rs1 rs2 s a b v
  have value : (subP (s.reg rs1) (s.reg rs2)).toNat = v := subP_toNat _ _
  have lt : v < P := value ▸ subP_lt _ _
  refine ⟨encode_and_mask (.sub rd rs1 rs2), produces_of_dest (i := .sub rd rs1 rs2) rfl value lt, fun canonical => ?_⟩
  refine ⟨toNat_sub_emod_P_eq_ite (canonical rs1) (canonical rs2), ?_⟩
  rw [← subP_eq_zero_iff (canonical rs1) (canonical rs2), ← value]
  exact BitVec.toNat_inj (y := 0)

/-- Settles O39: the result is the negation's number; of a nonzero operand it is `P` less the operand, and `P` is odd. -/
theorem negIsFieldNegation : Obligations.NegIsFieldNegation := by
  unfold Obligations.NegIsFieldNegation
  intro rd rs1 s canonical a
  have lt : (s.reg rs1).toNat < P := canonical rs1
  have value : (negP (s.reg rs1)).toNat = (P - a) % P := negP_toNat_of_le lt.le
  refine ⟨encode_and_mask (.neg rd rs1), ?_, fun zero => ?_, fun nonzero => ?_, negP_negP lt⟩
  · exact produces_of_dest (i := .neg rd rs1) rfl value (Nat.mod_lt _ P_pos)
  · rw [zero, Nat.sub_zero, Nat.mod_self]
  · exact oddFlag_negP (fun h => nonzero (congrArg BitVec.toNat h)) lt

end Sys2Proof.Machine

/-! # Proofs of 42_montgomery_mul.md: the constants, MUL, MONT and the datapaths

MUL and MONT are equations in `ZMod P`, where `R · RINV = 1`. A datapath's accumulator `u` is known by an equation of natural numbers,
`u · 2^k = t + m · P` with `m < 2^k` (`Reduces`): it has one solution, full-width REDC gives it at once with `k = 256`, and the
word-serial form gives it word by word. -/

namespace Sys2Proof.Machine

/-! ### The constants (R140) -/

theorem RMOD_eq : RMOD = R % P := by decide

theorem R2_eq : R2 = R ^ 2 % P := by decide

theorem R2_lt : R2 < P := by decide

theorem RINV_lt : RINV < P := by decide

theorem R_mul_RINV_mod : R * RINV % P = 1 := by decide

theorem PP_inverts : (P * PP + 1) % 2 ^ 256 = 0 := by decide

theorem N0_inverts : (P * N0 + 1) % 2 ^ 64 = 0 := by decide

theorem N0w32_inverts : (P * N0w32 + 1) % 2 ^ 32 = 0 := by decide

/-- Settles O45: each constant is computed. -/
theorem romConstantsMeetTheirFormulas : Obligations.RomConstantsMeetTheirFormulas := by
  unfold Obligations.RomConstantsMeetTheirFormulas
  exact ⟨rfl, RMOD_eq, by decide, R2_eq, RINV_lt, R_mul_RINV_mod, by decide, PP_inverts, by decide, N0_inverts, by decide,
    N0w32_inverts, by decide, four_mul_ESQRT⟩

/-! ### MONT and MUL in the field (R141, R142) -/

/-- `RINV` is the inverse of the radix in the field. -/
theorem R_mul_RINV : (R : ZMod P) * RINV = 1 := by
  rw [← Nat.cast_mul, ← Nat.cast_one, ZMod.natCast_eq_natCast_iff', R_mul_RINV_mod, Nat.mod_eq_of_lt one_lt_P]

theorem residue_one : residue 1 = 1 := by simp [residue]

/-- The Montgomery form of 1 is the radix. -/
@[simp] theorem residue_RMOD : residue (BitVec.ofNat 256 RMOD) = R := by
  rw [residue, toNat_ofNat_of_lt_P (by decide), RMOD_eq, ZMod.natCast_mod]

@[simp] theorem residue_R2 : residue (BitVec.ofNat 256 R2) = (R : ZMod P) ^ 2 := by
  rw [residue, toNat_ofNat_of_lt_P R2_lt, R2_eq, ZMod.natCast_mod, Nat.cast_pow]

@[simp] theorem residue_montP (a b : Word) : residue (montP a b) = residue a * residue b * RINV := by
  rw [montP, residue_modP]
  simp [residue]

theorem montP_lt (a b : Word) : (montP a b).toNat < P := modP_lt _

/-- A canonical word is the remainder of any number with its residue. -/
theorem toNat_eq_mod_of_residue_eq {a : Word} {n : Nat} (ha : a.toNat < P) (h : residue a = n) : a.toNat = n % P := by
  rw [← (ZMod.natCast_eq_natCast_iff' _ _ _).1 h, Nat.mod_eq_of_lt ha]

theorem montP_comm (a b : Word) : montP a b = montP b a :=
  eq_of_residue_eq (montP_lt _ _) (montP_lt _ _) (by simp [mul_comm])

theorem montP_zero_left (b : Word) : montP 0 b = 0 :=
  eq_of_residue_eq (montP_lt _ _) P_pos (by rw [residue_montP, residue_zero, zero_mul, zero_mul])

/-- The Montgomery form of 1 is neutral for MONT. -/
theorem montP_RMOD {a : Word} (ha : a.toNat < P) : montP a (BitVec.ofNat 256 RMOD) = a := by
  refine eq_of_residue_eq (montP_lt _ _) ha ?_
  rw [residue_montP, residue_RMOD, mul_assoc, R_mul_RINV, mul_one]

/-- MONT with 1 multiplies by `RINV`. -/
theorem montP_one (a : Word) : (montP a 1).toNat = a.toNat * RINV % P := by
  have one : (1 : Word).toNat = 1 := rfl
  rw [montP_toNat, one, mul_one]

/-- MONT with `R2` multiplies by the radix. -/
theorem residue_montP_R2 (a : Word) : residue (montP a (BitVec.ofNat 256 R2)) = residue a * R := by
  rw [residue_montP, residue_R2, sq, mul_assoc, mul_assoc, R_mul_RINV, mul_one]

/-- The product is the Montgomery product in Montgomery form (R142). -/
theorem montP_montP_R2 (a b : Word) : montP (montP a b) (BitVec.ofNat 256 R2) = mulP a b := by
  refine eq_of_residue_eq (montP_lt _ _) (mulP_lt _ _) ?_
  rw [residue_montP_R2, residue_montP, residue_mulP, mul_assoc, mul_comm (RINV : ZMod P), R_mul_RINV, mul_one]

/-- Out of Montgomery form is the inverse of into it (R141). -/
theorem montP_montP_R2_one {a : Word} (ha : a.toNat < P) : montP (montP a (BitVec.ofNat 256 R2)) 1 = a := by
  refine eq_of_residue_eq (montP_lt _ _) ha ?_
  rw [residue_montP, residue_montP_R2, residue_one, mul_one, mul_assoc, R_mul_RINV, mul_one]

/-- Settles O40: the result is the product mod P, and in the field `a·b·R⁻¹·R²·R⁻¹ = a·b`. -/
theorem mulIsFieldMultiplication : Obligations.MulIsFieldMultiplication := by
  unfold Obligations.MulIsFieldMultiplication
  intro rd rs1 rs2 s a b
  refine ⟨encode_and_mask (.mul rd rs1 rs2), ?_, montP_montP_R2 a b⟩
  exact produces_of_dest (i := .mul rd rs1 rs2) rfl (mulP_toNat _ _) (Nat.mod_lt _ P_pos)

/-- Settles O41: the result is the Montgomery product mod P, and the corner cases are equations of the field with `R · RINV = 1`. -/
theorem montIsMontgomeryProduct : Obligations.MontIsMontgomeryProduct := by
  unfold Obligations.MontIsMontgomeryProduct
  refine ⟨fun rd rs1 rs2 s => ⟨encode_and_mask (.mont rd rs1 rs2), ?_⟩, R_mul_RINV_mod, ?_, fun x y hx _ => ?_⟩
  · exact produces_of_dest (i := .mont rd rs1 rs2) rfl (montP_toNat _ _) (Nat.mod_lt _ P_pos)
  · exact (montP_one 1).trans (by decide)
  · refine ⟨montP_RMOD hx, ?_, montP_one x, montP_montP_R2_one hx, montP_comm x y, montP_zero_left y⟩
    exact toNat_eq_mod_of_residue_eq (montP_lt _ _) (by rw [residue_montP_R2, residue, Nat.cast_mul])

/-! ### Reducing by a multiple of P -/

/-- `u` is `t` divided by `2^k`, made exact by adding a multiple of P below `2^k · P`. -/
def Reduces (k t u : Nat) : Prop := ∃ m < 2 ^ k, u * 2 ^ k = t + m * P

theorem reduces_zero : Reduces 0 0 0 := ⟨0, by decide, rfl⟩

/-- P is odd, so only one multiple of P makes the division exact. -/
theorem Reduces.unique {k t u v : Nat} (hu : Reduces k t u) (hv : Reduces k t v) : u = v := by
  obtain ⟨m, m_lt, hu⟩ := hu
  obtain ⟨n, n_lt, hv⟩ := hv
  have coprime : Nat.Coprime (2 ^ k) P := Nat.Coprime.pow_left k (Nat.coprime_two_left.2 (Nat.odd_iff.2 P_mod_two))
  have multiples : t + m * P ≡ t + n * P [MOD 2 ^ k] := by
    rw [← hu, ← hv]
    exact (Nat.modEq_zero_iff_dvd.2 (Nat.dvd_mul_left _ _)).trans (Nat.modEq_zero_iff_dvd.2 (Nat.dvd_mul_left _ _)).symm
  have same : m = n := (multiples.add_left_cancel' t).cancel_right_of_coprime coprime |>.eq_of_lt_of_lt m_lt n_lt
  subst same
  exact Nat.eq_of_mul_eq_mul_right (Nat.two_pow_pos k) (hu.trans hv.symm)

/-- A reduction by `j` bits can be followed by one by `k` more, which takes in a further summand. -/
theorem Reduces.trans {j k t s u v : Nat} (low : Reduces j t u) (high : Reduces k (u + s) v) : Reduces (j + k) (t + s * 2 ^ j) v := by
  obtain ⟨m, m_lt, low⟩ := low
  obtain ⟨n, n_lt, high⟩ := high
  refine ⟨m + 2 ^ j * n, ?_, ?_⟩
  · calc m + 2 ^ j * n < 2 ^ j * (n + 1) := by rw [mul_add_one]; omega
      _ ≤ 2 ^ (j + k) := by rw [pow_add]; exact Nat.mul_le_mul_left _ n_lt
  · calc v * 2 ^ (j + k) = v * 2 ^ k * 2 ^ j := by ring
      _ = u * 2 ^ j + (s + n * P) * 2 ^ j := by rw [high]; ring
      _ = t + s * 2 ^ j + (m + 2 ^ j * n) * P := by rw [low]; ring

/-- Of a number below `P · 2^k` the reduction stays below `2P` (R143). -/
theorem Reduces.lt_two_mul_P {k t u : Nat} (h : Reduces k t u) (ht : t < P * 2 ^ k) : u < 2 * P := by
  obtain ⟨m, m_lt, h⟩ := h
  refine Nat.lt_of_mul_lt_mul_right (a := 2 ^ k) ?_
  calc u * 2 ^ k = t + m * P := h
    _ < P * 2 ^ k + 2 ^ k * P := Nat.add_lt_add_of_lt_of_le ht (Nat.mul_le_mul_right P m_lt.le)
    _ = 2 * P * 2 ^ k := by ring

/-- The step of both datapaths: with `q = -P⁻¹ mod 2^k` the multiple of P is found from the low `k` bits of `t`. -/
def reduceStep (k q t : Nat) : Nat := (t + t % 2 ^ k * q % 2 ^ k * P) / 2 ^ k

theorem redcU_eq (a b : Nat) : redcU a b = reduceStep 256 PP (a * b) := rfl

theorem serialU_succ (w n0 a b n : Nat) :
    serialU w n0 a b (n + 1) = reduceStep w n0 (serialU w n0 a b n + a * (b / 2 ^ (w * n) % 2 ^ w)) := rfl

/-- The sum is `t · (1 + q · P)` modulo `2^k`, so the step's division is exact. -/
theorem reduces_reduceStep {k q : Nat} (inverts : (P * q + 1) % 2 ^ k = 0) (t : Nat) : Reduces k t (reduceStep k q t) := by
  have multiple : t + t % 2 ^ k * q % 2 ^ k * P ≡ 0 [MOD 2 ^ k] := by
    calc t + t % 2 ^ k * q % 2 ^ k * P ≡ t + t * q * P [MOD 2 ^ k] :=
          (((Nat.mod_modEq _ _).trans ((Nat.mod_modEq t _).mul_right q)).mul_right P).add_left t
      _ = t * (P * q + 1) := by ring
      _ ≡ t * 0 [MOD 2 ^ k] := (Nat.modEq_zero_iff_dvd.2 (Nat.dvd_of_mod_eq_zero inverts)).mul_left t
  exact ⟨t % 2 ^ k * q % 2 ^ k, Nat.mod_lt _ (Nat.two_pow_pos k), Nat.div_mul_cancel (Nat.modEq_zero_iff_dvd.1 multiple)⟩

/-! ### Full-width REDC (R143) -/

theorem reduces_redcU (a b : Nat) : Reduces 256 (a * b) (redcU a b) := by
  rw [redcU_eq]
  exact reduces_reduceStep PP_inverts (a * b)

theorem redcU_lt {a b : Nat} (ha : a < P) (hb : b < P) : redcU a b < 2 * P :=
  (reduces_redcU a b).lt_two_mul_P (Nat.mul_lt_mul'' ha (hb.trans P_lt))

/-- In the field `u · R = a · b`, so `u` is the Montgomery product there. -/
theorem redcU_cast (a b : Nat) : (redcU a b : ZMod P) = a * b * RINV := by
  obtain ⟨m, -, h⟩ := reduces_redcU a b
  have scaled : (redcU a b : ZMod P) * R = a * b := by
    have cast := congrArg (Nat.cast : Nat → ZMod P) h
    rwa [Nat.cast_mul, Nat.cast_add, Nat.cast_mul, Nat.cast_mul, ZMod.natCast_self, mul_zero, add_zero] at cast
  rw [← scaled, mul_assoc, R_mul_RINV, mul_one]

/-- Below `2P` the one conditional subtraction reduces mod P. -/
theorem condSub_of_lt {u : Nat} (h : u < 2 * P) : condSub u = u % P := by
  unfold condSub
  split
  case isTrue above => rw [Nat.mod_eq_sub_mod above, Nat.mod_eq_of_lt (by omega)]
  case isFalse below => rw [Nat.mod_eq_of_lt (not_le.1 below)]

/-- REDC of canonical operands is the Montgomery product. -/
theorem redc_toNat {a b : Word} (ha : a.toNat < P) (hb : b.toNat < P) : redc a.toNat b.toNat = (montP a b).toNat := by
  rw [redc, condSub_of_lt (redcU_lt ha hb)]
  refine (toNat_eq_mod_of_residue_eq (montP_lt a b) ?_).symm
  rw [residue_montP, redcU_cast, residue, residue]

/-- Settles O47: REDC's `u` is below `2P` and the Montgomery product in the field; twice MONT, with `R2`, is MUL. -/
theorem redcComputesMont : Obligations.RedcComputesMont := by
  unfold Obligations.RedcComputesMont
  intro a b ha hb
  have R2_toNat : (BitVec.ofNat 256 R2).toNat = R2 := toNat_ofNat_of_lt_P R2_lt
  refine ⟨redcU_lt ha hb, redc_toNat ha hb, ?_⟩
  calc redc (redc a.toNat b.toNat) R2
      = redc (montP a b).toNat (BitVec.ofNat 256 R2).toNat := by rw [redc_toNat ha hb, R2_toNat]
    _ = (montP (montP a b) (BitVec.ofNat 256 R2)).toNat := redc_toNat (montP_lt a b) (R2_toNat.trans_lt R2_lt)
    _ = (mulP a b).toNat := by rw [montP_montP_R2]

/-! ### The word-serial form (R143) -/

/-- After `n` words the accumulator is the reduction of `a` times the words of `b` read so far. -/
theorem reduces_serialU {w n0 : Nat} (inverts : (P * n0 + 1) % 2 ^ w = 0) (a b n : Nat) :
    Reduces (w * n) (a * (b % 2 ^ (w * n))) (serialU w n0 a b n) := by
  induction n with
  | zero => simpa [serialU, Nat.mod_one] using reduces_zero
  | succ n ih =>
    have words : a * (b % 2 ^ (w * (n + 1))) = a * (b % 2 ^ (w * n)) + a * (b / 2 ^ (w * n) % 2 ^ w) * 2 ^ (w * n) := by
      rw [mul_add_one, pow_add, Nat.mod_mul]
      ring
    rw [words, serialU_succ]
    exact ih.trans (reduces_reduceStep inverts _)

/-- Words that make up 256 bits give full-width REDC's `u`. -/
theorem serialU_eq_redcU {w n0 n : Nat} (inverts : (P * n0 + 1) % 2 ^ w = 0) (width : w * n = 256) (a : Nat) {b : Nat} (hb : b < P) :
    serialU w n0 a b n = redcU a b := by
  have serial := reduces_serialU inverts a b n
  rw [width, Nat.mod_eq_of_lt (hb.trans P_lt)] at serial
  exact serial.unique (reduces_redcU a b)

/-- Settles O48: both word sizes make up 256 bits. -/
theorem wordSerialGivesTheSameU : Obligations.WordSerialGivesTheSameU := by
  unfold Obligations.WordSerialGivesTheSameU
  exact fun a b _ hb => ⟨serialU_eq_redcU N0_inverts (by decide) a hb, serialU_eq_redcU N0w32_inverts (by decide) a hb⟩

end Sys2Proof.Machine

/-! # Proofs of 43_modexp.md: EXP, INV, SQRT and their datapaths

The three commands answer with powers of their operand (R161 to R163). In the field `ZMod P` the power with exponent E_INV is the inverse,
and the power with exponent E_SQRT squares to the operand or to its negation. A datapath is right when its word has the same residue. -/

namespace Sys2Proof.Machine

/-! ### What a command with a destination answers -/

section

variable {i : Instr} {rd : Reg} (dest : i.dest = some rd) (s : State)
include dest

theorem ne_nop_of_dest : i ≠ .nop := by
  rintro rfl
  cases dest

/-- Its response carries its result. -/
theorem data_effect_of_dest : (effect i s).rsp.data = resultOf i s := by
  rw [rsp_effect (ne_nop_of_dest dest)]

/-- Its destination holds its result. -/
theorem reg_effect_eq_resultOf : (effect i s).reg rd = resultOf i s := by
  rw [reg_effect_dest dest, data_effect_of_dest dest]

/-- The flag QR of its response. -/
theorem qr_effect_of_dest : (effect i s).rsp.qr = qrOf i s := by
  rw [rsp_effect (ne_nop_of_dest dest), qr_flagsOf]

/-- Two commands with one destination, one result and the same flags end in the same state. -/
theorem effect_eq_of_result_eq {j : Instr} (other : j.dest = some rd) (gep : gepOf i s = gepOf j s) (qr : qrOf i s = qrOf j s)
    (result : resultOf i s = resultOf j s) : effect i s = effect j s := by
  rw [effect_of_dest dest, effect_of_dest other, gep, qr, result]

end

/-! ### EXP, INV and SQRT (R161 to R163) -/

/-- EXP's result with an exponent register that holds `e`. -/
theorem resultOf_exp_of_exponent {rs2 : Reg} {s : State} {e : Nat} (exponent : (s.reg rs2).toNat = e) (rd rs1 : Reg) :
    resultOf (.exp rd rs1 rs2) s = powP (s.reg rs1) e :=
  congrArg (powP (s.reg rs1)) exponent

/-- Settles O42: EXP's result is the power; with E_INV it is INV's result with the same flags, and with E_SQRT it is SQRT's result. -/
theorem expIsFieldPower : Obligations.ExpIsFieldPower := by
  unfold Obligations.ExpIsFieldPower
  intro rd rs1 rs2 s
  refine ⟨encode_and_mask (.exp rd rs1 rs2), ?_, fun exponent => ?_, fun exponent => ?_⟩
  · exact produces_of_dest (i := .exp rd rs1 rs2) rfl (powP_toNat _ (s.reg rs2).isLt) (Nat.mod_lt _ P_pos)
  · rw [exec_eq_effect, exec_eq_effect]
    exact congrArg _ (effect_eq_of_result_eq (i := .exp rd rs1 rs2) (j := .inv rd rs1) rfl s rfl rfl rfl
      (resultOf_exp_of_exponent exponent rd rs1))
  · have data : (effect (.exp rd rs1 rs2) s).rsp.data = (effect (.sqrt rd rs1) s).rsp.data := by
      rw [data_effect_of_dest rfl, data_effect_of_dest rfl]
      exact resultOf_exp_of_exponent exponent rd rs1
    refine ⟨_, _, exec_eq_effect _ s, exec_eq_effect _ s, ?_, data⟩
    rw [regs_effect_of_dest (rd := rd) rfl, regs_effect_of_dest (rd := rd) rfl, data]

/-- P is prime, so a positive power of a number below P is a multiple of P only for 0. -/
theorem pow_mod_P_eq_zero_iff {a e : Nat} (ha : a < P) (he : e ≠ 0) : a ^ e % P = 0 ↔ a = 0 := by
  rw [← Nat.dvd_iff_mod_eq_zero, prime_P.prime.dvd_pow_iff_dvd he]
  exact ⟨fun h => Nat.eq_zero_of_dvd_of_lt h ha, fun h => h ▸ dvd_zero P⟩

/-- Settles O43: INV's result is the power, which P divides only where the operand is 0. -/
theorem invIsFermatPower : Obligations.InvIsFermatPower := by
  unfold Obligations.InvIsFermatPower
  intro rd rs1 s a v
  refine ⟨encode_and_mask (.inv rd rs1), ?_, fun canonical => pow_mod_P_eq_zero_iff (canonical rs1) (by decide)⟩
  exact produces_of_dest (i := .inv rd rs1) rfl (powP_EINV_toNat _) (Nat.mod_lt _ P_pos)

/-- Settles O44: SQRT's result is the power, and QR compares its square with the operand read from the state before the write. -/
theorem sqrtIsRootPowerWithCheck : Obligations.SqrtIsRootPowerWithCheck := by
  unfold Obligations.SqrtIsRootPowerWithCheck
  intro rd rs1 s a r
  have root : (powP (s.reg rs1) ESQRT).toNat = r := powP_ESQRT_toNat _
  have qr : qrOf (.sqrt rd rs1) s = decide (r * r % P = a) := by
    rw [← root]
    exact mulP_self_beq _ _
  refine ⟨encode_and_mask (.sqrt rd rs1), ?_⟩
  rw [← qr]
  exact produces_of_dest (i := .sqrt rd rs1) rfl root (Nat.mod_lt _ P_pos)

/-! ### Square-and-multiply in Montgomery form (R164) -/

/-- `n` is the Montgomery form of the field element `x`. -/
def IsMont (x : ZMod P) (n : Nat) : Prop := n < P ∧ (n : ZMod P) = x * R

theorem redc_lt {a b : Nat} (ha : a < P) (hb : b < P) : redc a b < P := by
  rw [redc, condSub_of_lt (redcU_lt ha hb)]
  exact Nat.mod_lt _ P_pos

theorem redc_cast {a b : Nat} (ha : a < P) (hb : b < P) : (redc a b : ZMod P) = a * b * RINV := by
  rw [redc, condSub_of_lt (redcU_lt ha hb), ZMod.natCast_mod, redcU_cast]

/-- Montgomery form is entered by REDC with `R2`. -/
theorem isMont_redc_R2 {a : Nat} (ha : a < P) : IsMont a (redc a R2) := by
  refine ⟨redc_lt ha R2_lt, ?_⟩
  calc (redc a R2 : ZMod P) = a * (R : ZMod P) ^ 2 * RINV := by
        rw [redc_cast ha R2_lt, R2_eq, ZMod.natCast_mod, Nat.cast_pow]
    _ = a * R * (R * RINV) := by ring
    _ = a * R := by rw [R_mul_RINV, mul_one]

theorem isMont_RMOD : IsMont 1 RMOD :=
  ⟨by decide, by rw [RMOD_eq, ZMod.natCast_mod, one_mul]⟩

/-- REDC multiplies Montgomery forms. -/
theorem IsMont.mul {x y : ZMod P} {m n : Nat} (hm : IsMont x m) (hn : IsMont y n) : IsMont (x * y) (redc m n) := by
  obtain ⟨m_lt, hm⟩ := hm
  obtain ⟨n_lt, hn⟩ := hn
  refine ⟨redc_lt m_lt n_lt, ?_⟩
  calc (redc m n : ZMod P) = x * R * (y * R) * RINV := by rw [redc_cast m_lt n_lt, hm, hn]
    _ = x * y * R * (R * RINV) := by ring
    _ = x * y * R := by rw [R_mul_RINV, mul_one]

/-- Montgomery form is left by REDC with 1. -/
theorem IsMont.cast_redc_one {x : ZMod P} {n : Nat} (h : IsMont x n) : (redc n 1 : ZMod P) = x := by
  obtain ⟨lt, h⟩ := h
  rw [redc_cast lt one_lt_P, h, Nat.cast_one, mul_one, mul_assoc, R_mul_RINV, mul_one]

theorem mexpLoop_succ (aM e i acc : Nat) :
    mexpLoop aM e (i + 1) acc = mexpLoop aM e i (if e.testBit i then redc (redc acc acc) aM else redc acc acc) := rfl

/-- Bit `i` is the lowest of the exponent's bits from `i` upwards. -/
theorem div_two_pow_eq (e i : Nat) : e / 2 ^ i = 2 * (e / 2 ^ (i + 1)) + (e.testBit i).toNat := by
  rw [Nat.toNat_testBit, pow_succ, ← Nat.div_div_eq_div_mul, Nat.div_add_mod]

/-- Before the bits below `i` the accumulator holds the power whose exponent is the bits from `i` upwards. -/
theorem isMont_mexpLoop {x : ZMod P} {aM : Nat} (base : IsMont x aM) (e : Nat) :
    ∀ {i acc : Nat}, IsMont (x ^ (e / 2 ^ i)) acc → IsMont (x ^ e) (mexpLoop aM e i acc) := by
  intro i
  induction i with
  | zero =>
    intro acc h
    rwa [pow_zero, Nat.div_one] at h
  | succ i ih =>
    intro acc h
    rw [mexpLoop_succ]
    refine ih ?_
    have square := h.mul h
    rw [div_two_pow_eq, pow_add, two_mul, pow_add]
    cases e.testBit i with
    | false => simpa using square
    | true => simpa using square.mul base

/-- A number below P is the remainder of any number with its residue. -/
theorem eq_mod_P_of_cast_eq {m n : Nat} (hm : m < P) (h : (m : ZMod P) = n) : m = n % P := by
  rw [← (ZMod.natCast_eq_natCast_iff' m n P).1 h, Nat.mod_eq_of_lt hm]

/-- Square-and-multiply over REDC computes the power. -/
theorem mexp_eq {a e : Nat} (ha : a < P) (he : e < 2 ^ 256) : mexp a e = a ^ e % P := by
  have start : IsMont ((a : ZMod P) ^ (e / 2 ^ 256)) RMOD := by
    rw [Nat.div_eq_of_lt he, pow_zero]
    exact isMont_RMOD
  have loop := isMont_mexpLoop (isMont_redc_R2 ha) e start
  refine eq_mod_P_of_cast_eq (redc_lt loop.1 one_lt_P) ?_
  rw [Nat.cast_pow]
  exact loop.cast_redc_one

/-- Settles O49: both sides are `a ^ e mod P`, which is 1 for `0 ^ 0`. -/
theorem mexpComputesPower : Obligations.MexpComputesPower := by
  unfold Obligations.MexpComputesPower
  intro a e ha _
  refine ⟨?_, ?_⟩
  · rw [mexp_eq ha e.isLt, powP_toNat a e.isLt]
  · rw [mexp_eq P_pos (Nat.two_pow_pos 256), pow_zero, Nat.mod_eq_of_lt one_lt_P]

/-! ### The inverse (R162, R164, R165) -/

/-- Fermat: the power with exponent `P - 2` is the inverse, and 0 for 0. -/
theorem pow_EINV_eq_inv (x : ZMod P) : x ^ EINV = x⁻¹ := by
  have := fact_prime_P
  by_cases hx : x = 0
  · rw [hx, zero_pow (by decide), inv_zero]
  · refine eq_inv_of_mul_eq_one_left ?_
    rw [← pow_succ, show EINV + 1 = P - 1 by decide, ZMod.pow_card_sub_one_eq_one hx]

/-- INV's word stands for the inverse in the field. -/
theorem residue_powP_EINV (a : Word) : residue (powP a EINV) = (residue a)⁻¹ := by
  rw [residue_powP a (by decide), pow_EINV_eq_inv]

theorem residue_eq_zero_iff {a : Word} (ha : a.toNat < P) : residue a = 0 ↔ a = 0 := by
  rw [← residue_zero]
  exact ⟨eq_of_residue_eq ha P_pos, congrArg residue⟩

/-- Bézout: of a number below P the coefficient is the inverse in the field, and 0 for 0. -/
theorem gcdA_cast {a : Nat} (ha : a < P) : (Nat.gcdA a P : ZMod P) = (a : ZMod P)⁻¹ := by
  obtain rfl | pos := Nat.eq_zero_or_pos a
  · rw [Nat.gcdA_zero_left, Int.cast_zero, Nat.cast_zero, ZMod.inv_zero]
  · have coprime : Nat.gcd a P = 1 := (Nat.coprime_of_lt_prime pos.ne' ha prime_P).symm
    have bezout := congrArg (Int.cast : Int → ZMod P) (Nat.gcd_eq_gcd_ab a P)
    rw [coprime] at bezout
    refine (ZMod.inv_eq_of_mul_eq_one P _ _ ?_).symm
    simpa using bezout.symm

theorem gcdInv_eq (a : Nat) : gcdInv a = (modP (Nat.gcdA a P)).toNat := (modP_toNat _).symm

/-- Settles O50: both words are canonical and stand for the inverse. -/
theorem gcdInverseConforms : Obligations.GcdInverseConforms := by
  unfold Obligations.GcdInverseConforms
  intro a ha
  have same : modP (Nat.gcdA a.toNat P) = powP a EINV := by
    refine eq_of_residue_eq (modP_lt _) (powP_lt a EINV) ?_
    rw [residue_modP, gcdA_cast ha, residue_powP_EINV, residue]
  rw [gcdInv_eq, same]

theorem powP_EINV_powP_EINV {a : Word} (ha : a.toNat < P) : powP (powP a EINV) EINV = a := by
  have := fact_prime_P
  refine eq_of_residue_eq (powP_lt _ _) ha ?_
  rw [residue_powP_EINV, residue_powP_EINV, inv_inv]

theorem mulP_powP_EINV {a : Word} (ha : a.toNat < P) (nonzero : a ≠ 0) : mulP a (powP a EINV) = 1 := by
  have := fact_prime_P
  refine eq_of_residue_eq (mulP_lt _ _) one_lt_P ?_
  rw [residue_mulP, residue_powP_EINV, residue_one, mul_inv_cancel₀ ((residue_eq_zero_iff ha).not.2 nonzero)]

theorem powP_one_EINV : powP 1 EINV = 1 := by
  refine eq_of_residue_eq (powP_lt _ _) one_lt_P ?_
  rw [residue_powP 1 (by decide), residue_one, one_pow]

/-! ### The root (R163, R165) -/

/-- The root of the square of a canonical word that is itself a square is that word: `(c⁴) ^ E_SQRT = c ^ (P + 1) = c²`. -/
theorem powP_mulP_self_ESQRT {b : Word} (hb : b.toNat < P) (square : IsSquare (residue b)) : powP (mulP b b) ESQRT = b := by
  obtain ⟨c, hc⟩ := square
  refine eq_of_residue_eq (powP_lt _ _) hb ?_
  rw [residue_powP _ ESQRT_lt, residue_mulP, hc, ← sq, ← sq, pow_right_comm, sq_pow_ESQRT_sq]

/-- 2 is a square, because P leaves 7 modulo 8. -/
theorem isSquare_two : IsSquare (2 : ZMod P) := by
  have := fact_prime_P
  exact (ZMod.exists_sq_eq_two_iff (by decide)).2 (.inr (by decide))

theorem powP_one_ESQRT : powP 1 ESQRT = 1 := by
  have square : mulP 1 1 = 1 := by decide
  have root := powP_mulP_self_ESQRT (b := 1) one_lt_P (residue_one ▸ IsSquare.one)
  rwa [square] at root

theorem powP_four_ESQRT : powP 4 ESQRT = 2 := by
  have square : mulP 2 2 = 4 := by decide
  have two : residue 2 = 2 := by simp [residue]
  have root := powP_mulP_self_ESQRT (b := 2) (by decide) (two ▸ isSquare_two)
  rwa [square] at root

/-- The root of a square squares back to it. -/
theorem mulP_powP_ESQRT_of_square (b : Word) : mulP (powP (mulP b b) ESQRT) (powP (mulP b b) ESQRT) = mulP b b := by
  refine eq_of_residue_eq (mulP_lt _ _) (mulP_lt _ _) ?_
  rw [residue_mulP, residue_powP _ ESQRT_lt, ← sq, residue_mulP, ← sq, sq_pow_ESQRT_sq]

theorem qrOf_sqrt_iff (rd rs1 : Reg) (s : State) :
    qrOf (.sqrt rd rs1) s = true ↔ mulP (powP (s.reg rs1) ESQRT) (powP (s.reg rs1) ESQRT) = s.reg rs1 :=
  beq_iff_eq

/-- Settles O51: each command's result is known, and each law is one of the words' laws above. -/
theorem inverseAndRootLaws : Obligations.InverseAndRootLaws := by
  unfold Obligations.InverseAndRootLaws
  intro rd rs1 s canonical
  have inv : (effect (.inv rd rs1) s).reg rd = powP (s.reg rs1) EINV := reg_effect_eq_resultOf rfl s
  have root : (effect (.sqrt rd rs1) s).reg rd = powP (s.reg rs1) ESQRT := reg_effect_eq_resultOf rfl s
  refine ⟨_, _, _, exec_eq_effect _ s, exec_eq_effect _ _, exec_eq_effect _ s, ?_, ?_, ?_, ?_⟩
  · intro nonzero
    refine ⟨?_, ?_⟩
    · rw [reg_effect_eq_resultOf rfl, resultOf, inv, powP_EINV_powP_EINV (canonical rs1)]
    · rw [inv, mulP_powP_EINV (canonical rs1) nonzero]
  · intro one
    rw [inv, root, one]
    exact ⟨powP_one_EINV, powP_one_ESQRT⟩
  · intro four
    rw [root, four, powP_four_ESQRT]
  · intro b square
    have back : mulP (powP (s.reg rs1) ESQRT) (powP (s.reg rs1) ESQRT) = s.reg rs1 := square ▸ mulP_powP_ESQRT_of_square b
    refine ⟨?_, _, exec_eq_effect _ _, ?_⟩
    · rw [qr_effect_of_dest rfl, qrOf_sqrt_iff, back]
    · rw [reg_effect_eq_resultOf rfl, resultOf, root, back]

/-- Euler: the power with exponent `(P + 1) / 4` squares to `x · x ^ (P / 2)`, which is `x` or `-x`. -/
theorem pow_ESQRT_sq_eq_or (x : ZMod P) : (x ^ ESQRT) ^ 2 = x ∨ (x ^ ESQRT) ^ 2 = -x := by
  have := fact_prime_P
  have euler : (x ^ ESQRT) ^ 2 = x ^ (P / 2) * x := by
    rw [← pow_mul, ← pow_succ, show ESQRT * 2 = P / 2 + 1 by decide]
  rw [euler]
  by_cases hx : x = 0
  · left
    rw [hx, mul_zero]
  · obtain one | negOne := ZMod.pow_div_two_eq_neg_one_or_one P hx
    · left
      rw [one, one_mul]
    · right
      rw [negOne, neg_one_mul]

theorem mulP_powP_ESQRT_eq_or {a : Word} (ha : a.toNat < P) :
    mulP (powP a ESQRT) (powP a ESQRT) = a ∨ mulP (powP a ESQRT) (powP a ESQRT) = negP a := by
  have square : residue (mulP (powP a ESQRT) (powP a ESQRT)) = (residue a ^ ESQRT) ^ 2 := by
    rw [residue_mulP, residue_powP a ESQRT_lt, sq]
  refine (pow_ESQRT_sq_eq_or (residue a)).imp (fun same => ?_) (fun negated => ?_)
  · exact eq_of_residue_eq (mulP_lt _ _) ha (square.trans same)
  · exact eq_of_residue_eq (mulP_lt _ _) (negP_lt a) (by rw [square, negated, residue_negP])

theorem negP_zero : negP 0 = 0 := by decide

/-- Settles O52: the root's check passes exactly for squares; where it fails the root squares to the negation, and the operand is not 0. -/
theorem qrFlagDecidesSquares : Obligations.QrFlagDecidesSquares := by
  unfold Obligations.QrFlagDecidesSquares
  intro rd rs1 s canonical
  refine ⟨_, exec_eq_effect _ s, ?_, ?_⟩
  · rw [qr_effect_of_dest rfl, qrOf_sqrt_iff, mulP_powP_ESQRT_eq_iff (canonical rs1)]
  · intro qr
    rw [qr_effect_of_dest rfl, ← Bool.not_eq_true, qrOf_sqrt_iff] at qr
    have negated := (mulP_powP_ESQRT_eq_or (canonical rs1)).resolve_left qr
    have nonzero : s.reg rs1 ≠ 0 := by
      intro zero
      exact qr (by rw [negated, zero, negP_zero])
    rw [reg_effect_eq_resultOf rfl, resultOf, negated, negP_toNat_of_ne_zero nonzero (canonical rs1)]

end Sys2Proof.Machine

/-! # Proofs of 60_exceptions.md: the one exception and the status codes

A word in one of R200's forms has fields that are not well formed, so it does not decode and its completion edge raises ILLEGAL; every
command that does execute ends with status OK. -/

namespace Sys2Proof

theorem eq_zero_of_fieldOk {carried : Bool} {v : Nat} (ok : fieldOk carried v = true) (absent : carried = false) : v = 0 :=
  (fieldOk_iff.1 ok).2.resolve_left (Bool.eq_false_iff.1 absent)

/-- R82: in well-formed fields, those that the opcode's format does not carry are 0. -/
theorem Fields.eq_zero_of_wf {x : Fields} {o : Opcode} (assigned : Opcode.ofNumber x.op = some o) (wf : x.wf = true) :
    (o.format.hasRd = false → x.rd = 0) ∧ (o.format.hasRs1 = false → x.rs1 = 0) ∧
      (o.format.hasRs2 = false → x.rs2 = 0) ∧ (o.format.hasImm = false → x.imm = 0) := by
  obtain ⟨rd, rs1, rs2, imm⟩ := (Fields.wf_iff assigned).1 wf
  exact ⟨eq_zero_of_fieldOk rd, eq_zero_of_fieldOk rs1, eq_zero_of_fieldOk rs2, eq_zero_of_fieldOk imm⟩

/-- A legal word's number has zeros in the fields that the format of its opcode does not carry. -/
theorem eq_zero_of_legal {w : CmdWord} {o : Opcode} (assigned : Opcode.ofNumber (w.toNat / 4096) = some o)
    (legal : ∃ i, decode w = .ok i) :
    (o.format.hasRd = false → w.toNat / 512 % 8 = 0) ∧ (o.format.hasRs1 = false → w.toNat / 64 % 8 = 0) ∧
      (o.format.hasRs2 = false → w.toNat / 8 % 8 = 0) ∧ (o.format.hasImm = false → w.toNat % 8 = 0) := by
  rw [exists_decode_iff_wf, Fields.ofWord_eq] at legal
  exact Fields.eq_zero_of_wf assigned legal

theorem not_legal_of_reserved {w : CmdWord} (reserved : 12 ≤ w.toNat / 4096) : ¬∃ i, decode w = .ok i := by
  rw [decode_of_reserved reserved]
  rintro ⟨_, ⟨⟩⟩

end Sys2Proof

namespace Sys2Proof.Machine

/-- Settles O9: none of the forms is legal, so the last BUSY edge is a completion edge that raises ILLEGAL. -/
theorem illegalWordChangesNoRegister : Obligations.IllegalWordChangesNoRegister := by
  unfold Obligations.IllegalWordChangesNoRegister
  intro s n rst phase last form
  have illegal : ¬∃ i, decode s.cmdl.word = .ok i := by
    obtain reserved | ⟨o, assigned, nonzero⟩ := form
    · exact not_legal_of_reserved reserved
    · intro legal
      obtain ⟨rd, rs1, rs2, imm⟩ := eq_zero_of_legal assigned legal
      obtain ⟨absent, ne⟩ | ⟨absent, ne⟩ | ⟨absent, ne⟩ | ⟨absent, ne⟩ := nonzero
      · exact ne (rd absent)
      · exact ne (rs1 absent)
      · exact ne (rs2 absent)
      · exact ne (imm absent)
  calc step s = .next ({ s.advance with busyLeft := 0 } : State).completed := (StepsTo.complete rst phase last).step_eq
    _ = .next ({ s.advance with busyLeft := 0 } : State).raiseIllegal :=
      congrArg Host.Outcome.next (completed_of_illegal (s := { s.advance with busyLeft := 0 }) illegal)

/-- Every command ends with status OK (R202). -/
theorem status_effect (i : Instr) (s : State) : (effect i s).rsp.status = statusOk := by
  obtain ⟨-, he⟩ | ⟨_, -, he⟩ | ⟨_, -, he⟩ := effect_cases i s
  · rw [he, rsp_respond]
  · rw [he, rsp_respond]
  · rw [he, rsp_retire]

theorem status_completed_of_legal {s : State} (legal : ∃ i, decode s.cmdl.word = .ok i) : s.completed.rsp.status = statusOk := by
  obtain ⟨i, decodes⟩ := legal
  rw [completed_of_decode decodes, status_effect]

theorem status_completed_of_illegal {s : State} (illegal : ¬∃ i, decode s.cmdl.word = .ok i) :
    s.completed.rsp.status = statusIllegal := by
  rw [completed_of_illegal illegal, rsp_raiseIllegal]

/-- Settles O29: a legal word's completion edge ends with status OK and any other's with ILLEGAL, which are different codes. -/
theorem statusOkExactlyForLegalWords : Obligations.StatusOkExactlyForLegalWords := by
  unfold Obligations.StatusOkExactlyForLegalWords
  intro s
  refine ⟨s.completed, complete_eq_completed s, ?_⟩
  by_cases legal : ∃ i, decode s.cmdl.word = .ok i
  · rw [status_completed_of_legal legal]
    simp [legal, statusOk]
  · rw [status_completed_of_illegal legal]
    simp [legal, statusIllegal]

end Sys2Proof.Machine

/-! # Proofs of 70_reset_and_hazards.md: reset and the least command period

Reset is one kind of edge of `StepsTo`. A command issued with `LAT = n` and `rsp_ready` held at 1 is accepted at one edge, completed `n`
edges later (`run_completes`) and delivered at the edge after that; its pins ask for no reset in between. -/

namespace Sys2Proof.Machine

/-! ### Reset (R230) -/

/-- R39: `cmd_ready` is 0 while `rst = 1`. -/
theorem cmdReady_true (s : State) : s.cmdReady true = false := by simp [State.cmdReady]

theorem cmdReady_of_phase_ne_idle {s : State} (busy : s.phase ≠ .idle) (rst : Bool) : s.cmdReady rst = false := by
  simp [State.cmdReady, busy]

/-- Settles O11: the resetting edge of `StepsTo`. -/
theorem resetEdgeOutranksEverything : Obligations.ResetEdgeOutranksEverything := by
  unfold Obligations.ResetEdgeOutranksEverything
  intro s rst
  exact ⟨cmdReady_true s, _, (StepsTo.reset rst).step_eq, rfl, rfl, rfl, rfl, cmdReady_true _⟩

/-! ### Delivery at the edge after completion (R42) -/

@[simp] theorem pins_completed (s : State) : s.completed.pins = s.pins := by rw [completed_frame]

theorem nextPins_completed (s : State) : s.completed.nextPins = s.nextPins := by
  rw [completed_frame]
  rfl

/-- A BUSY engine whose response is taken at once is in IDLE one edge after its completion edge. -/
theorem run_delivers {s : State} {n : Nat} (phase : s.phase = .busy) (left : s.busyLeft = n + 1)
    (rst : ∀ k ≤ n + 1, (s.pinsAt k).rst = false) (ready : (s.pinsAt (n + 1)).rspReady = true) :
    run (n + 2) s =
      .next { ({ s.later (n + 1) with busyLeft := 0 } : State).completed.advance with phase := .idle } := by
  have no_reset := rst (n + 1) le_rfl
  have pins : ({ s.later (n + 1) with busyLeft := 0 } : State).completed.nextPins = s.pinsAt (n + 1) :=
    (nextPins_completed _).trans (nextPins_later s (n + 1))
  rw [← pins] at no_reset ready
  have completes := run_completes phase left fun k hk => rst k (by omega)
  exact (run_add completes 1).trans (run_succ_of_step (StepsTo.deliver no_reset (phase_completed _) ready).step_eq 0)

/-! ### One issued command (R240) -/

/-- The state after the edge that accepts the issued command. -/
def State.issued (s : State) (c : Command) (n : Nat) : State := (s.issue c n).advance.accept c

section
variable {s : State} {c : Command} {n k : Nat}

theorem step_issue (idle : s.phase = .idle) : step (s.issue c n) = .next (s.issued c n) :=
  (StepsTo.accept (s := s.issue c n) rfl idle rfl).step_eq

theorem phase_waited_issued : ((s.issued c n).waited k).phase = .busy := rfl

theorem busyLeft_issued (pos : 1 ≤ n) : (s.issued c n).busyLeft = n := Nat.max_eq_right pos

theorem pins_issued :
    (s.issued c n).pins = List.replicate (n + 1) { Pins.quiet with rspReady := true } ++ s.pins := by
  rw [List.replicate_succ']
  rfl

/-- After acceptance the client keeps `rsp_ready` at 1 and asks for no reset until the response is taken. -/
theorem pinsAt_issued (hk : k ≤ n) : (s.issued c n).pinsAt k = { Pins.quiet with rspReady := true } := by
  have in_list : k < n + 1 := Nat.lt_succ_of_le hk
  simp [State.pinsAt, pins_issued, List.getD_eq_getElem?_getD, List.getElem?_append, in_list]

theorem rst_issued (hk : k ≤ n) : ((s.issued c n).pinsAt k).rst = false := congrArg Pins.rst (pinsAt_issued hk)

theorem rspReady_issued (hk : k ≤ n) : ((s.issued c n).pinsAt k).rspReady = true :=
  congrArg Pins.rspReady (pinsAt_issued hk)

end

/-- Settles O22: the accepted command waits for `n - 1` edges in BUSY (`run_busy`), completes at the next one (`run_completes`) and is
delivered at the one after (`run_delivers`), where the pins of the command are used up. -/
theorem leastCommandPeriod : Obligations.LeastCommandPeriod := by
  unfold Obligations.LeastCommandPeriod
  intro s c n idle pos
  obtain ⟨m, rfl⟩ := Nat.exists_eq_add_of_le' pos
  have left : (s.issued c (m + 1)).busyLeft = m + 1 := busyLeft_issued pos
  have after_accept (k : Nat) : run (k + 1) (s.issue c (m + 1)) = run k (s.issued c (m + 1)) :=
    run_succ_of_step (step_issue idle) k
  have completes := (after_accept (m + 1)).trans (run_completes rfl left fun k hk => rst_issued (by omega))
  have delivers := (after_accept (m + 2)).trans
    (run_delivers rfl left (fun k hk => rst_issued hk) (rspReady_issued le_rfl))
  refine ⟨fun k one_le hk => ?_, { (s.issued c (m + 1)).later (m + 1) with busyLeft := 0 }, _, _, completes, phase_completed _,
    delivers, rfl, rfl, rfl, rfl, ?_, ?_, rfl, rfl, complete_eq_completed _⟩
  · obtain ⟨j, rfl⟩ := Nat.exists_eq_add_of_le' one_le
    obtain waits | rfl : j < m + 1 ∨ j = m + 1 := by omega
    · have counts := run_busy rfl (waits.trans_eq left.symm) fun k hk => rst_issued (by omega)
      exact ⟨_, (after_accept j).trans counts, rfl, cmdReady_of_phase_ne_idle (by simp [phase_waited_issued])⟩
    · exact ⟨_, completes, cmdl_completed _, cmdReady_of_phase_ne_idle (by simp)⟩
  · simp [State.later, pins_issued]
  · simp [State.later, State.issued, State.issue]

end Sys2Proof.Machine
